-- ==== Sys2Proof/Word.lean ====
section
/-! DEFINITION. The widths the spec fixes (00_scope.md R6 "Fixed widths", R9): every value is unsigned. -/

namespace Sys2Proof

/-- A port byte, a status byte, a data byte or an instruction byte (R6). -/
abbrev Byte := BitVec 8

/-- A data nibble: the lines D7..D4 as bits 3..0 (R6, R11, R77). -/
abbrev Nibble := BitVec 4

/-- A command word (R65). -/
abbrev CmdWord := BitVec 16

/-- A 7-bit I2C target address (R6, R45). -/
abbrev I2cAddr := BitVec 7

/-- A minimum duration in nanoseconds (R6, R17; log entry 9: DESIGN CHOICE). -/
abbrev Duration := Nat

end Sys2Proof
end

