-- ==== Sys2Proof/Config.lean ====
section
/-! DEFINITION. The configuration of 00_scope.md R6 and 10_state.md R33, and the free values: what the bus
transport answers (20_memory.md R55). The values the configuration takes at reset stand in
Machine/ConfigValues.lean. -/

namespace Sys2Proof

/-- `SYNC_MODE` (R122): fixed-delay mode or busy-poll mode. -/
inductive SyncMode where
  | fixed
  | poll
  deriving DecidableEq, Repr

/-- `READ_SAMPLE_POINT` (R104): where in a receive cycle the port is read. -/
inductive SamplePoint where
  | eHigh
  | afterPulse
  deriving DecidableEq, Repr

/-- `READ_PATH` (R119): whether the engine has the polling controller. -/
inductive ReadPath where
  | present
  | absent
  deriving DecidableEq, Repr

/-- `PINMAP` (R8): the bit index of each of the eight logical lines in the port byte. -/
structure PinMap where
  d4 : Fin 8
  d5 : Fin 8
  d6 : Fin 8
  d7 : Fin 8
  rs : Fin 8
  rw : Fin 8
  e : Fin 8
  bl : Fin 8
  deriving DecidableEq, Repr

/-- The configuration of R6, sampled when reset is released and fixed until the next reset (R7). -/
structure Config where
  /-- `I2C_ADDR`: any 7-bit value (R56). -/
  i2cAddr : I2cAddr
  /-- `BL_INIT`: true = backlight on. -/
  blInit : Bool
  /-- `SYNC_MODE`. -/
  syncMode : SyncMode
  /-- `PINMAP`. -/
  pinMap : PinMap
  /-- `READ_SAMPLE_POINT`. -/
  samplePoint : SamplePoint
  /-- `READ_PATH`. -/
  readPath : ReadPath
  /-- `N_POLL_MAX`: at most 65535 by its width; 0 is illegal (R33). -/
  nPollMax : BitVec 16
  /-- `T_SETUP`. -/
  tSetup : Duration
  /-- `T_PW`: 0 is illegal (R33). -/
  tPw : Duration
  /-- `T_SETTLE`. -/
  tSettle : Duration
  /-- `T_EXEC_SHORT`. -/
  tExecShort : Duration
  /-- `T_EXEC_LONG`. -/
  tExecLong : Duration
  /-- `T_POLL_GAP`. -/
  tPollGap : Duration
  /-- `T_INIT0`. -/
  tInit0 : Duration
  /-- `T_INIT1`. -/
  tInit1 : Duration
  /-- `T_INIT2`. -/
  tInit2 : Duration
  /-- `T_INIT3`. -/
  tInit3 : Duration
  /-- `FS8`: the "function set, 8-bit" nibble of INIT. -/
  fs8 : Nibble
  /-- `FS4`: the "function set, 4-bit" nibble of INIT. -/
  fs4 : Nibble
  deriving DecidableEq, Repr

/-- The bus transport's answer to one bus operation (R12, R13, R55, R164; log entry 5). -/
inductive BusReply where
  /-- `Ok`: a read returns `data`; a write has no use for it. -/
  | ok (data : Byte)
  /-- `Err`: `landed` says whether a write reached the expander latch all the same (R39). -/
  | err (landed : Bool)
  /-- The operation never returns (R164); `landed` as for `err`. -/
  | never (landed : Bool)
  deriving DecidableEq, Repr, Inhabited

/-- FREE VALUE: the answer to the bus operation with this number (R55: "a draw"; log entry 5). It has no body, so
nothing can be proved about which answer it is. -/
opaque Config.busDraw : Nat → BusReply

end Sys2Proof
end

