-- ==== Sys2Proof/Syntax.lean ====
section
/-! DEFINITION. The commands of spec/opcode_table.json (30_encoding.md R70, R88), the fields of a command word
(R66 to R69) and the engine-level pseudo-instructions (R89). -/

namespace Sys2Proof

/-- One constructor per row of spec/opcode_table.json. -/
inductive Instr where
  /-- `WNIB rs, n` (R109): one nibble transaction with RS = `rs`. -/
  | wnib (rs : Bool) (n : Nibble)
  /-- `WCMD b` / `WCMD b, L` (R113): one instruction byte, `lw` = the long class (R68). -/
  | wcmd (lw : Bool) (b : Byte)
  /-- `WDATA b` (R114): one data byte. -/
  | wdata (b : Byte)
  /-- `RSTAT` (R128): read the status byte once. -/
  | rstat
  /-- `RDATA` (R129): read one data byte. -/
  | rdata
  /-- `POLL` (R130): wait until not busy, within the bound. -/
  | poll
  /-- `SETBL v` (R97): set the backlight flag. -/
  | setbl (b : Bool)
  /-- `INIT` (R115): walk the controller into 4-bit mode. -/
  | init
  deriving DecidableEq, Repr

/-- The fields of the command format `CMD16` (R66 to R70). -/
structure Fields where
  /-- `cmd[15:12]` (R66). -/
  op : BitVec 4
  /-- `cmd[11]` (R67). -/
  rs : Bool
  /-- `cmd[10]` (R68). -/
  lw : Bool
  /-- `cmd[9]` (R69). -/
  b : Bool
  /-- `cmd[8]`, reserved (R69). -/
  r : Bool
  /-- `cmd[7:0]` (R69). -/
  val : Byte
  deriving DecidableEq, Repr

/-- The engine-level pseudo-instructions of R89; each is another spelling of one command. -/
inductive Pseudo where
  /-- `WCMDL b`. -/
  | wcmdl (b : Byte)
  /-- `BLON`. -/
  | blon
  /-- `BLOFF`. -/
  | bloff
  /-- `WNIBI n`. -/
  | wnibi (n : Nibble)
  deriving DecidableEq, Repr

end Sys2Proof
end

