-- ==== Sys2Proof/WellFormed.lean ====
section
/-! DEFINITION. The two checks the spec states: which field values of a command word are legal (30_encoding.md R70,
R74) and which configurations are legal (10_state.md R33, 43_sync_and_read.md R119). -/

namespace Sys2Proof

/-- R70: the row of the command table that the fields fit, with every field marked 0 equal to 0. -/
def Fields.legal (f : Fields) : Bool :=
  !f.r &&
  match f.op.toNat with
  | 0x1 => !f.lw && !f.b && (f.val >>> 4) == 0
  | 0x2 => !f.b && !(f.rs && f.lw)
  | 0x3 => !f.lw && !f.b && f.val == 0
  | 0x4 => !f.rs && !f.lw && !f.b && f.val == 0
  | 0x5 => !f.rs && !f.lw && f.val == 0
  | 0x6 => !f.rs && !f.lw && !f.b && f.val == 0
  | _ => false

/-- The eight bit indices in the order R6 lists the lines. -/
def PinMap.indices (p : PinMap) : List (Fin 8) :=
  [p.d4, p.d5, p.d6, p.d7, p.rs, p.rw, p.e, p.bl]

/-- R8: the eight lines occupy eight distinct bit positions. -/
def PinMap.injective (p : PinMap) : Bool :=
  decide p.indices.Nodup

/-- R33, R119: the configurations the engine may have; the other ranges of R6 hold by the fields' types. -/
def Config.legal (c : Config) : Bool :=
  c.pinMap.injective
  && c.nPollMax != 0
  && decide (0 < c.tPw)
  && !(c.readPath == .absent && c.syncMode == .poll)

end Sys2Proof
end

