-- ==== Sys2Proof/Decode.lean ====
section
/-! DEFINITION. The decoder of 30_encoding.md R86 over the rows of R74, total on every word, and the encoder of
R70 and R88. -/

namespace Sys2Proof

/-- One row of the opcode table (R74): the word fits when `(w & mask) = value`. -/
structure OpRow where
  mnemonic : String
  value : CmdWord
  mask : CmdWord
  deriving DecidableEq, Repr

def rowWnib : OpRow := { mnemonic := "WNIB", value := 0x1000, mask := 0xF7F0 }
def rowWcmd : OpRow := { mnemonic := "WCMD", value := 0x2000, mask := 0xFB00 }
def rowWdata : OpRow := { mnemonic := "WDATA", value := 0x2800, mask := 0xFF00 }
def rowRstat : OpRow := { mnemonic := "RSTAT", value := 0x3000, mask := 0xFFFF }
def rowRdata : OpRow := { mnemonic := "RDATA", value := 0x3800, mask := 0xFFFF }
def rowPoll : OpRow := { mnemonic := "POLL", value := 0x4000, mask := 0xFFFF }
def rowSetbl : OpRow := { mnemonic := "SETBL", value := 0x5000, mask := 0xFDFF }
def rowInit : OpRow := { mnemonic := "INIT", value := 0x6000, mask := 0xFFFF }

/-- The rows in the order R86 tries them. -/
def opRows : List OpRow :=
  [rowWnib, rowWcmd, rowWdata, rowRstat, rowRdata, rowPoll, rowSetbl, rowInit]

/-- R86: `(w & row.mask) = row.match`. -/
def rowFits (row : OpRow) (w : CmdWord) : Bool :=
  (w &&& row.mask) == row.value

/-- R66 to R69: the fields of a command word. -/
def fieldsOf (w : CmdWord) : Fields :=
  { op := w.extractLsb' 12 4
    rs := w.getLsbD 11
    lw := w.getLsbD 10
    b := w.getLsbD 9
    r := w.getLsbD 8
    val := w.extractLsb' 0 8 }

/-- R71: the nibble operand `cmd[3:0]`. -/
def nibbleOperand (w : CmdWord) : Nibble :=
  w.extractLsb' 0 4

/-- R86: the command a word stands for; `none` is a word that is illegal under R83 or R84. -/
def decode (w : CmdWord) : Option Instr :=
  if rowFits rowWnib w then some (.wnib (fieldsOf w).rs (nibbleOperand w))
  else if rowFits rowWcmd w then some (.wcmd (fieldsOf w).lw (fieldsOf w).val)
  else if rowFits rowWdata w then some (.wdata (fieldsOf w).val)
  else if rowFits rowRstat w then some .rstat
  else if rowFits rowRdata w then some .rdata
  else if rowFits rowPoll w then some .poll
  else if rowFits rowSetbl w then some (.setbl (fieldsOf w).b)
  else if rowFits rowInit w then some .init
  else none

/-- Why a word is illegal: R83 for a reserved opcode, R84 for a reserved field value. -/
inductive IllegalWord where
  /-- `op` = 0x0 or 0x7..0xF (R83). -/
  | reservedOpcode
  /-- A defined `op` with a field that its row fixes otherwise (R84). -/
  | reservedField
  deriving DecidableEq, Repr

/-- R83: `op` = 0x0 and 0x7..0xF are reserved. -/
def reservedOp (op : BitVec 4) : Bool :=
  op == 0 || decide (7 ≤ op.toNat)

/-- The decoder with the rejection named: both kinds end with the same InvalidParameter (R83, R84). -/
def decodeOrReason (w : CmdWord) : Except IllegalWord Instr :=
  match decode w with
  | some i => .ok i
  | none => .error (if reservedOp (fieldsOf w).op then .reservedOpcode else .reservedField)

/-- spec/opcode_table.json's numbering: one 16-bit word, bit 0 its least significant bit; a number that does not
fit the word, or a length other than at most one word, is no command. -/
def decodeTableWord (nbits w : Nat) : Option Instr :=
  if nbits ≤ 16 ∧ w < 2 ^ 16 then decode (BitVec.ofNat 16 w) else none

/-- R70: the field values of each command's row. -/
def fields : Instr → Fields
  | .wnib rs n => { op := 0x1, rs := rs, lw := false, b := false, r := false, val := n.setWidth 8 }
  | .wcmd lw b => { op := 0x2, rs := false, lw := lw, b := false, r := false, val := b }
  | .wdata b => { op := 0x2, rs := true, lw := false, b := false, r := false, val := b }
  | .rstat => { op := 0x3, rs := false, lw := false, b := false, r := false, val := 0 }
  | .rdata => { op := 0x3, rs := true, lw := false, b := false, r := false, val := 0 }
  | .poll => { op := 0x4, rs := false, lw := false, b := false, r := false, val := 0 }
  | .setbl b => { op := 0x5, rs := false, lw := false, b := b, r := false, val := 0 }
  | .init => { op := 0x6, rs := false, lw := false, b := false, r := false, val := 0 }

/-- R70: the word with these fields. -/
def pack (f : Fields) : CmdWord :=
  f.op ++ BitVec.ofBool f.rs ++ BitVec.ofBool f.lw ++ BitVec.ofBool f.b ++ BitVec.ofBool f.r ++ f.val

/-- R88: the word of a command. -/
def encode (i : Instr) : CmdWord :=
  pack (fields i)

/-- The row of the opcode table a command belongs to (R74). -/
def rowOf : Instr → OpRow
  | .wnib _ _ => rowWnib
  | .wcmd _ _ => rowWcmd
  | .wdata _ => rowWdata
  | .rstat => rowRstat
  | .rdata => rowRdata
  | .poll => rowPoll
  | .setbl _ => rowSetbl
  | .init => rowInit

/-- R89: the command each pseudo-instruction expands to. -/
def expandPseudo : Pseudo → Instr
  | .wcmdl b => .wcmd true b
  | .blon => .setbl true
  | .bloff => .setbl false
  | .wnibi n => .wnib false n

end Sys2Proof
end

