-- ==== Sys2Proof/Machine/Operands.lean ====
section
/-! DEFINITION. The operand forms: the port byte and its inverse (40_port_serializer.md R92, R93), the nibble of a
read byte (30_encoding.md R79), and the nibble split and assembly of a byte (R80). -/

namespace Sys2Proof.Machine

/-- R11: the eight logical lines; `d` carries D7..D4 as bits 3..0. -/
structure PinState where
  d : Nibble
  rs : Bool
  rw : Bool
  e : Bool
  bl : Bool
  deriving DecidableEq, Repr

/-- R9: `v[i]`. -/
def bitAt (v : Byte) (i : Fin 8) : Bool :=
  v.getLsbD i.val

/-- R10: `v[i] <- b`. -/
def setBitAt (v : Byte) (i : Fin 8) (b : Bool) : Byte :=
  if b then v ||| BitVec.twoPow 8 i.val else v &&& ~~~(BitVec.twoPow 8 i.val)

/-- R92: `encode`, the port byte of a pin state, its eight assignments in the order R92 writes them. -/
def encodePins (pm : PinMap) (p : PinState) : Byte :=
  let v := setBitAt 0 pm.d4 (p.d.getLsbD 0)
  let v := setBitAt v pm.d5 (p.d.getLsbD 1)
  let v := setBitAt v pm.d6 (p.d.getLsbD 2)
  let v := setBitAt v pm.d7 (p.d.getLsbD 3)
  let v := setBitAt v pm.rs p.rs
  let v := setBitAt v pm.rw p.rw
  let v := setBitAt v pm.e p.e
  setBitAt v pm.bl p.bl

/-- R79: `dnib(r)`, the four data-line bits of a byte, D7 first. -/
def dataNibble (pm : PinMap) (r : Byte) : Nibble :=
  BitVec.ofBool (bitAt r pm.d7) ++ BitVec.ofBool (bitAt r pm.d6) ++ BitVec.ofBool (bitAt r pm.d5)
    ++ BitVec.ofBool (bitAt r pm.d4)

/-- R93: the pin state of a port byte, the inverse of `encodePins` for an injective map. -/
def decodePins (pm : PinMap) (v : Byte) : PinState :=
  { d := dataNibble pm v
    rs := bitAt v pm.rs
    rw := bitAt v pm.rw
    e := bitAt v pm.e
    bl := bitAt v pm.bl }

/-- R80: `B[7:4]`. -/
def highNibble (b : Byte) : Nibble :=
  b.extractLsb' 4 4

/-- R80: `B[3:0]`. -/
def lowNibble (b : Byte) : Nibble :=
  b.extractLsb' 0 4

/-- R80: `{hi, lo}`. -/
def joinNibbles (hi lo : Nibble) : Byte :=
  hi ++ lo

end Sys2Proof.Machine
end

