-- ==== Sys2Proof/Machine/Flags.lean ====
section
/-! DEFINITION. The engine's one flag, BF, and the address counter beside it in a status byte (10_state.md R28,
R32; 30_encoding.md R81). -/

namespace Sys2Proof.Machine

/-- R81: `BF = s[7]`; true = busy. -/
def busyFlag (s : Byte) : Bool :=
  s.getLsbD 7

/-- R81: `AC = s[6:0]`. -/
def addressCounter (s : Byte) : BitVec 7 :=
  s.extractLsb' 0 7

end Sys2Proof.Machine
end

