-- ==== Sys2Proof/Machine/ConfigValues.lean ====
section
/-! DEFINITION. The configuration values the spec names: the default wiring `DOCMAP`, a second wiring, and the
configuration that State.reset holds (00_scope.md R6; log entry 3). -/

namespace Sys2Proof.Machine

/-- `DOCMAP` (R6, R8): D4=0, D5=1, D6=2, D7=3, RS=4, RW=5, E=6, BL=7. -/
def docMap : PinMap :=
  { d4 := 0, d5 := 1, d6 := 2, d7 := 3, rs := 4, rw := 5, e := 6, bl := 7 }

/-- The second legal wiring of 93_implementation_defined.md K8 (`ALTMAP` of the test vectors). -/
def altMap : PinMap :=
  { rs := 0, rw := 1, e := 2, bl := 3, d4 := 4, d5 := 5, d6 := 6, d7 := 7 }

/-- The configuration State.reset holds. The parameters with a default in R6 have it. The OPEN ones without
a default (`I2C_ADDR`, `BL_INIT`, `SYNC_MODE`, `READ_PATH`, `N_POLL_MAX`) are DESIGN CHOICE (log entry 3): no
statement rests on them, a reset under every legal configuration is `State.resetWith`. -/
def defaultConfig : Config :=
  { i2cAddr := 0x27
    blInit := true
    syncMode := .fixed
    pinMap := docMap
    samplePoint := .eHigh
    readPath := .present
    nPollMax := 3
    tSetup := 0
    tPw := 1000
    tSettle := 1000
    tExecShort := 50000
    tExecLong := 2000000
    tPollGap := 0
    tInit0 := 50000000
    tInit1 := 4100000
    tInit2 := 100000
    tInit3 := 100000
    fs8 := 0x3
    fs4 := 0x2 }

end Sys2Proof.Machine
end

