-- ==== Sys2Proof/Machine/State.lean ====
section
/-! DEFINITION. The machine's state: the ten registers of 10_state.md R22, the configuration (R33), the expander
latch (R39), the observation (00_scope.md R18, 70_reset_and_hazards.md R164), the channels' inputs (R21, R44) and
the free values' place. INVENTORY.md lists every field with its rule. -/

namespace Sys2Proof.Machine

/-- R36: the sequencer phase. -/
inductive Phase where
  | idle
  | busy
  deriving DecidableEq, Repr

/-- R31, R132: the four response codes. -/
inductive RspCode where
  | ok
  | busError
  | timeout
  | invalidParameter
  deriving DecidableEq, Repr

/-- R18: one event of a command's trace. -/
inductive Event where
  /-- `W(v)`, and `W(v)!` when `failed`. -/
  | w (v : Byte) (failed : Bool)
  /-- `R(r)`. -/
  | r (v : Byte)
  /-- `R_FAIL`. -/
  | rFail
  /-- `D(t)`. -/
  | d (t : Duration)
  deriving DecidableEq, Repr

/-- R21: what the `rsp` channel carries. -/
structure Response where
  code : RspCode
  data : Byte
  deriving DecidableEq, Repr

/-- R164: one triple of a run; `rsp` is `none` for a command that a reset abandoned (R150). -/
structure Exchange where
  word : CmdWord
  trace : List Event
  rsp : Option Response
  deriving DecidableEq, Repr

/-- R44: the host's moves. -/
inductive HostMove where
  /-- A command word on `cmd` (R37). -/
  | issue (w : CmdWord)
  /-- `rst` between commands, or while a bus operation is outstanding; `c` is sampled at its release (R7, R150). -/
  | reset (c : Config)
  /-- A command word, then `rst` after `n` trace events of that command (R150; log entry 7). -/
  | issueReset (w : CmdWord) (n : Nat) (c : Config)
  deriving DecidableEq, Repr

/-- R45, R39: the expander's output latch at each I2C target address, in one canonical form (`memoryWf`). An
address that is not listed holds an unknown byte (R42; log entry 8). -/
abbrev Memory := List Host.Cell

/-- The whole state. Plain data. -/
structure State where
  /-- `bl` (R23). -/
  bl : Bool
  /-- `shadow` (R27). -/
  shadow : Byte
  /-- `cmd` (R26). -/
  cmd : CmdWord
  /-- `seq` (R36). -/
  seq : Phase
  /-- `nib_hi` (R29). -/
  nibHi : Nibble
  /-- `nib_lo` (R29). -/
  nibLo : Nibble
  /-- `stat` (R28). -/
  stat : Byte
  /-- `pcount` (R30). -/
  pcount : BitVec 16
  /-- `rsp_code` (R31). -/
  rspCode : RspCode
  /-- `rsp_data` (R31). -/
  rspData : Byte
  /-- The configuration in force (R7, R33). -/
  cfg : Config
  /-- The trace of the current or last command (R18). -/
  trace : List Event
  /-- The run so far (R164). -/
  history : List Exchange
  /-- The expander's output latch (R39). -/
  mem : Memory
  /-- The host's coming moves, the next one first (R44; log entry 2). -/
  host : List HostMove
  /-- Trace events left before `rst` is asserted during the command (R150; log entry 7). -/
  rstIn : Option Nat
  /-- The model's own: bus answers placed in advance, the next one first (log entry 5). -/
  replies : List BusReply
  /-- The model's own: bus operations so far, the number `Config.busDraw` is applied to (log entry 5). -/
  busCount : Nat
  deriving DecidableEq, Repr

/-- Why the machine stops. -/
inductive Fault where
  /-- Raised by `step` when `seq` = `BUSY` and the host's next move is no reset: a bus operation never returned, so
  no step is enabled (R164; 93_implementation_defined.md S1, S12; log entry 6). Safe. -/
  | stuckBusy
  deriving DecidableEq, Repr

/-- Why the machine gives no meaning. -/
inductive Refusal where
  /-- An instruction whose meaning is not written. Raised by no arm of `exec`. Safe. -/
  | notModelled (mnemonic : String)
  /-- Raised by `step` under a configuration, or at the release of a reset with a configuration, that R33 calls
  not legal: "A model refuses it" (S10; log entry 10). Safe. -/
  | illegalConfig
  deriving DecidableEq, Repr

/-- The outcome of one step of this machine. -/
abbrev Outcome := Host.Outcome State Fault Refusal

/-- R41: the byte `shadow` holds after a reset under `c`. -/
def resetShadow (c : Config) : Byte :=
  encodePins c.pinMap { d := 0, rs := false, rw := false, e := false, bl := c.blInit }

/-- R41, R149: the machine right after power-up and a reset released under the configuration `c`. The reset value
of `cmd` is the model's (log entry 4); the latch is unknown (R42); the host has no move and the bus no answer in
place yet. -/
def State.resetWith (c : Config) : State :=
  { bl := c.blInit
    shadow := resetShadow c
    cmd := 0
    seq := .idle
    nibHi := 0
    nibLo := 0
    stat := 0
    pcount := 0
    rspCode := .ok
    rspData := 0
    cfg := c
    trace := []
    history := []
    mem := []
    host := []
    rstIn := none
    replies := []
    busCount := 0 }

/-- The machine right after reset, under the configuration of log entry 3. -/
def State.reset : State :=
  State.resetWith defaultConfig

end Sys2Proof.Machine
end

