-- ==== Sys2Proof/Machine/Ops.lean ====
section
/-! DEFINITION. The shared operations: the latch memory, the bus oracle, the primitives of 00_scope.md R12 to R17,
ending a command normally or by an error (60_exceptions.md R139), command acceptance (10_state.md R37) and reset
(70_reset_and_hazards.md R149, R150). -/

namespace Sys2Proof.Machine

/-! ### The expander latch (10_state.md R39, 20_memory.md R45) -/

/-- The latch at an address; `none` = unknown, nothing has been written there. -/
def readLatch : Memory → I2cAddr → Option Byte
  | [], _ => none
  | (k, v) :: rest, a => if k = a.toNat then some v else readLatch rest a

/-- Put a byte at a key of a list sorted by key. -/
def insertCell (k : Nat) (v : Byte) : Memory → Memory
  | [] => [(k, v)]
  | (k', v') :: rest =>
    if k < k' then (k, v) :: (k', v') :: rest
    else if k = k' then (k, v) :: rest
    else (k', v') :: insertCell k v rest

/-- The latch at `a` becomes `v`. -/
def writeLatch (m : Memory) (a : I2cAddr) (v : Byte) : Memory :=
  insertCell a.toNat v m

/-- The canonical form: addresses strictly rising, every one a 7-bit address. -/
def memoryWf (m : Memory) : Bool :=
  decide ((m.map Prod.fst).Pairwise (· < ·)) && m.all (fun c => decide (c.1 < 128))

/-! ### Register writes (00_scope.md R10: `x <- v`) -/

/-- `bl <- b`: reset and SETBL only (R24). -/
def setBl (b : Bool) (s : State) : State := { s with bl := b }

/-- `shadow <- v`: every port write (R27). -/
def setShadow (v : Byte) (s : State) : State := { s with shadow := v }

/-- `nib_hi <- n` (R29, R120). -/
def setNibHi (n : Nibble) (s : State) : State := { s with nibHi := n }

/-- `nib_lo <- n` (R29, R120). -/
def setNibLo (n : Nibble) (s : State) : State := { s with nibLo := n }

/-- `stat <- b`: a status read only (R28, R121). -/
def setStat (b : Byte) (s : State) : State := { s with stat := b }

/-- `pcount <- n` (R30, R125). -/
def setPcount (n : BitVec 16) (s : State) : State := { s with pcount := n }

/-! ### The bus oracle (20_memory.md R55) -/

/-- The answer to the bus operation that comes after `k` more of them: the one placed, else the free value. -/
def replyAt (s : State) (k : Nat) : BusReply :=
  (s.replies[k]?).getD (Config.busDraw (s.busCount + k))

/-- One answer has been taken. -/
def popReply (s : State) : State :=
  { s with replies := s.replies.tail, busCount := s.busCount + 1 }

/-! ### How a statement of a command goes on -/

/-- The result of a part of a command's pseudocode: it ran to its end with a value, or the command went no
further (an error response, a reset, a bus operation that never returns). -/
inductive Flow (α : Type) where
  | run (a : α) (s : State)
  | ended (s : State)

/-- R58: the next statement, after the one before it has run. -/
def andThen {α β : Type} (f : Flow α) (k : α → State → Flow β) : Flow β :=
  match f with
  | .run a s => k a s
  | .ended s => .ended s

/-! ### Reset on the `rst` channel while a command runs (70_reset_and_hazards.md R150, R151) -/

/-- Before each statement that makes a trace event: go on, unless `rst` has come. -/
def tick (s : State) : Flow Unit :=
  match s.rstIn with
  | none => .run () s
  | some 0 => .ended s
  | some (n + 1) => .run () { s with rstIn := some n }

/-! ### The end of a command (00_scope.md R15, R16; 60_exceptions.md R139) -/

/-- Present a response, record the exchange, go to `IDLE`; nothing of it if `rst` came first (R151). -/
def endCommand (code : RspCode) (data : Byte) (s : State) : State :=
  match s.rstIn with
  | some 0 => s
  | _ =>
    { s with
      rspCode := code
      rspData := data
      seq := .idle
      history := s.history ++ [{ word := s.cmd, trace := s.trace, rsp := some { code := code, data := data } }] }

/-- R15, R139: `raise E(info)`. This is the engine's taking of an exception: the code and the info go to the
response registers, the sequencer goes to `IDLE`, nothing is rolled back. -/
def raiseError (code : RspCode) (info : Byte) (s : State) : State :=
  endCommand code info s

/-- R16: `respond(code, data)`. -/
def respond (data : Byte) (s : State) : State :=
  endCommand .ok data s

/-- The state a command leaves: `respond(0, data)` after its last statement, or where it went no further. -/
def closeCommand (f : Flow Byte) : State :=
  match f with
  | .run data s => respond data s
  | .ended s => s

/-- A command always leaves a state (R132, R141). -/
def finish (f : Flow Byte) : Outcome :=
  .next (closeCommand f)

/-! ### Waits and port operations (00_scope.md R12 to R14, R17) -/

/-- Append one event to the trace (R18). -/
def logEvent (e : Event) (s : State) : State :=
  { s with trace := s.trace ++ [e] }

/-- The latch of the engine's expander becomes `v` if `landed`, else stays (R39). -/
def latchIf (landed : Bool) (v : Byte) (s : State) : State :=
  if landed then { s with mem := writeLatch s.mem s.cfg.i2cAddr v } else s

/-- R17: `Wait(t)`. -/
def wait (t : Duration) (s : State) : Flow Unit :=
  andThen (tick s) fun _ s => .run () (logEvent (.d t) s)

/-- R14, R39: `PortWrite(v)`. -/
def portWrite (v : Byte) (s : State) : Flow Unit :=
  andThen (tick s) fun _ s =>
    match replyAt s 0 with
    | .ok _ =>
      .run () (latchIf true v (logEvent (.w v false) (popReply (setShadow v s))))
    | .err landed =>
      .ended (raiseError .busError 0 (latchIf landed v (logEvent (.w v true) (popReply (setShadow v s)))))
    | .never landed =>
      .ended (latchIf landed v (logEvent (.w v false) (popReply (setShadow v s))))

/-- R14: `PortRead()`. -/
def portRead (s : State) : Flow Byte :=
  andThen (tick s) fun _ s =>
    match replyAt s 0 with
    | .ok data => .run data (logEvent (.r data) (popReply s))
    | .err _ => .ended (raiseError .busError 0 (logEvent .rFail (popReply s)))
    | .never _ => .ended (popReply s)

/-- R94: `port(d, rs, rw, e)`, with the `bl` register at the moment of composition. -/
def port (d : Nibble) (rs rw e : Bool) (s : State) : Byte :=
  encodePins s.cfg.pinMap { d := d, rs := rs, rw := rw, e := e, bl := s.bl }

/-! ### Acceptance (10_state.md R37) and reset (R41, R149, R150) -/

/-- R37: `cmd <- word`, `seq <- BUSY`; the new command's trace starts, `rst` comes after `r` events of it. -/
def accept (w : CmdWord) (r : Option Nat) (s : State) : State :=
  { s with cmd := w, seq := .busy, trace := [], rstIn := r }

/-- R135: an illegal word ends with InvalidParameter before any bus operation. -/
def invalidParameter (s : State) : State :=
  raiseError .invalidParameter 0 s

/-- R164, R150: the record of a run after a reset: a command in execution is abandoned with no response. -/
def abandoned (s : State) : List Exchange :=
  match s.seq with
  | .idle => s.history
  | .busy => s.history ++ [{ word := s.cmd, trace := s.trace, rsp := none }]

/-- R41, R149, R150: reset released under `c`. What lies outside the engine stays: the latch, the host's coming
moves, the bus answers, the record of the run (log entry 12). -/
def resetNow (c : Config) (s : State) : State :=
  { State.resetWith c with
    history := abandoned s
    mem := s.mem
    host := s.host
    replies := s.replies
    busCount := s.busCount }

/-- A reset, refused if its configuration is not legal (R33, R152; log entry 10). -/
def doReset (c : Config) (s : State) : Outcome :=
  if c.legal then .next (resetNow c s) else .refused .illegalConfig

/-- A reset that comes during or right after what `o` ran (R150, R151). -/
def thenReset (c : Config) (o : Outcome) : Outcome :=
  match o with
  | .next s => doReset c s
  | .fault r => .fault r
  | .refused r => .refused r

/-- R33, R37: a command is taken only under a legal configuration and in `IDLE`. -/
def whenReady (s : State) (o : Outcome) : Outcome :=
  if s.cfg.legal then
    match s.seq with
    | .idle => o
    | .busy => .fault .stuckBusy
  else .refused .illegalConfig

/-! ### What the host sees (10_state.md R31, R34) -/

/-- R132: the number of a response code. -/
def codeBits : RspCode → BitVec 2
  | .ok => 0
  | .busError => 1
  | .timeout => 2
  | .invalidParameter => 3

end Sys2Proof.Machine
end

