-- ==== Sys2Proof/Machine/NibbleEngine.lean ====
section
/-! DEFINITION. The enable-pulse sequencer: the nibble transaction and the receive cycle that every other command is
built from, and WNIB (41_nibble_engine.md). -/

namespace Sys2Proof.Machine

/-- R100: `TxNibble(d, rs)`. -/
def txNibble (d : Nibble) (rs : Bool) (s : State) : Flow Unit :=
  andThen (portWrite (port d rs false false s) s) fun _ s =>
  andThen (wait s.cfg.tSetup s) fun _ s =>
  andThen (portWrite (port d rs false true s) s) fun _ s =>
  andThen (wait s.cfg.tPw s) fun _ s =>
  andThen (portWrite (port d rs false false s) s) fun _ s =>
  wait s.cfg.tSettle s

/-- R103: the sampled read and the write that ends the pulse, in the order `READ_SAMPLE_POINT` gives (R104). -/
def sampleAndFall (rs : Bool) (s : State) : Flow Byte :=
  match s.cfg.samplePoint with
  | .eHigh =>
    andThen (portRead s) fun r s =>
    andThen (portWrite (port 0xF rs true false s) s) fun _ s =>
    .run r s
  | .afterPulse =>
    andThen (portWrite (port 0xF rs true false s) s) fun _ s =>
    portRead s

/-- R103: `RxNibble(rs)`; the data lines are written 1, so released (R78). -/
def rxNibble (rs : Bool) (s : State) : Flow Nibble :=
  andThen (portWrite (port 0xF rs true false s) s) fun _ s =>
  andThen (wait s.cfg.tSetup s) fun _ s =>
  andThen (portWrite (port 0xF rs true true s) s) fun _ s =>
  andThen (wait s.cfg.tPw s) fun _ s =>
  andThen (sampleAndFall rs s) fun r s =>
  andThen (wait s.cfg.tSettle s) fun _ s =>
  .run (dataNibble s.cfg.pinMap r) s

/-- R109: WNIB. -/
def execWnib (rs : Bool) (n : Nibble) (s : State) : Outcome :=
  finish (andThen (txNibble n rs s) fun _ s => .run 0 s)

end Sys2Proof.Machine
end

