-- ==== Sys2Proof/Machine/SyncAndRead.lean ====
section
/-! DEFINITION. The byte read, the status read, the busy poll, the two synchronization strategies and RSTAT, RDATA
and POLL (43_sync_and_read.md). -/

namespace Sys2Proof.Machine

/-- R120: `RxByte(rs)`. -/
def rxByte (rs : Bool) (s : State) : Flow Byte :=
  andThen (rxNibble rs s) fun hi s =>
  andThen (rxNibble rs (setNibHi hi s)) fun lo s =>
  .run (joinNibbles s.nibHi lo) (setNibLo lo s)

/-- R121: `StatusRead()`; `stat` is written only when both nibbles have been received. -/
def statusRead (s : State) : Flow Byte :=
  andThen (rxByte false s) fun b s => .run b (setStat b s)

/-- R125: the most status reads one poll can make, `N_POLL_MAX`; the value 0, which R33 makes illegal, is what the
16-bit counter would reach only after going round. -/
def pollFuel (c : Config) : Nat :=
  (c.nPollMax - 1).toNat + 1

/-- R125: `pcount = N_POLL_MAX`. -/
def pollBoundReached (s : State) : Bool :=
  s.pcount == s.cfg.nPollMax

/-- R125: the loop of `PollBusy`; R126: Timeout with the last status byte. The first argument counts the reads that
remain; the bound test ends the loop before it is 0. -/
def pollLoop : Nat → State → Flow Byte
  | 0, s => .ended (raiseError .timeout s.stat s)
  | k + 1, s =>
    andThen (statusRead s) fun b s =>
    let s := setPcount (s.pcount + 1) s
    if busyFlag b then
      if pollBoundReached s then .ended (raiseError .timeout b s)
      else andThen (wait s.cfg.tPollGap s) fun _ s => pollLoop k s
    else .run b s

/-- R125: `PollBusy()`. -/
def pollBusy (s : State) : Flow Byte :=
  pollLoop (pollFuel s.cfg) (setPcount 0 s)

/-- R68, R123: the execution-time class of an instruction; true is LONG. -/
def execTime (long : Bool) (c : Config) : Duration :=
  if long then c.tExecLong else c.tExecShort

/-- R123: `Sync(cls)`. -/
def sync (long : Bool) (s : State) : Flow Byte :=
  match s.cfg.syncMode with
  | .fixed => andThen (wait (execTime long s.cfg) s) fun _ s => .run 0 s
  | .poll => pollBusy s

/-- R119: without the read path the words of RSTAT, RDATA and POLL are illegal. -/
def withReadPath (s : State) (f : Flow Byte) : Flow Byte :=
  match s.cfg.readPath with
  | .present => f
  | .absent => .ended (invalidParameter s)

/-- R128: RSTAT. -/
def execRstat (s : State) : Outcome :=
  finish (withReadPath s (statusRead s))

/-- R129: RDATA; the response carries the data byte, a Timeout of the sync loses it. -/
def execRdata (s : State) : Outcome :=
  finish (withReadPath s
    (andThen (rxByte true s) fun x s =>
     andThen (sync false s) fun _ s =>
     .run x s))

/-- R130: POLL. -/
def execPoll (s : State) : Outcome :=
  finish (withReadPath s (pollBusy s))

end Sys2Proof.Machine
end

