-- ==== Sys2Proof/Machine/ByteTransactions.lean ====
section
/-! DEFINITION. The byte transaction, WCMD, WDATA and the 4-bit mode entry walk INIT (42_instruction_encoder.md). -/

namespace Sys2Proof.Machine

/-- R110: `TxByte(B, rs)`, high nibble first. -/
def txByte (b : Byte) (rs : Bool) (s : State) : Flow Unit :=
  andThen (txNibble (highNibble b) rs s) fun _ s =>
  txNibble (lowNibble b) rs s

/-- R113: WCMD. -/
def execWcmd (lw : Bool) (b : Byte) (s : State) : Outcome :=
  finish (andThen (txByte b false s) fun _ s => sync lw s)

/-- R114: WDATA. -/
def execWdata (b : Byte) (s : State) : Outcome :=
  finish (andThen (txByte b true s) fun _ s => sync false s)

/-- R115, R116: INIT, four single nibbles with fixed gaps; it never polls. -/
def execInit (s : State) : Outcome :=
  finish
    (andThen (wait s.cfg.tInit0 s) fun _ s =>
     andThen (txNibble s.cfg.fs8 false s) fun _ s =>
     andThen (wait s.cfg.tInit1 s) fun _ s =>
     andThen (txNibble s.cfg.fs8 false s) fun _ s =>
     andThen (wait s.cfg.tInit2 s) fun _ s =>
     andThen (txNibble s.cfg.fs8 false s) fun _ s =>
     andThen (wait s.cfg.tInit3 s) fun _ s =>
     andThen (txNibble s.cfg.fs4 false s) fun _ s =>
     andThen (wait s.cfg.tExecShort s) fun _ s =>
     .run 0 s)

end Sys2Proof.Machine
end

