-- ==== Sys2Proof/Machine/PortSerializer.lean ====
section
/-! DEFINITION. SETBL, the command built on the port byte alone (40_port_serializer.md R97, R98). -/

namespace Sys2Proof.Machine

/-- R97: `shadow` with only its BL bit replaced. -/
def backlightByte (b : Bool) (s : State) : Byte :=
  setBitAt s.shadow s.cfg.pinMap.bl b

/-- R97, R98: SETBL; `bl` is written before the port write and keeps its value if the write fails. -/
def execSetbl (b : Bool) (s : State) : Outcome :=
  finish (andThen (portWrite (backlightByte b s) (setBl b s)) fun _ s => .run 0 s)

end Sys2Proof.Machine
end

