-- ==== Sys2Proof/Machine/Dispatch.lean ====
section
/-! DEFINITION. What each command does: one arm per constructor of Instr. -/

namespace Sys2Proof.Machine

def exec (i : Instr) (s : State) : Host.Outcome State Fault Refusal :=
  match i with
  | .wnib rs n => Sys2Proof.Machine.execWnib rs n s
  | .wcmd lw b => Sys2Proof.Machine.execWcmd lw b s
  | .wdata b => Sys2Proof.Machine.execWdata b s
  | .rstat => Sys2Proof.Machine.execRstat s
  | .rdata => Sys2Proof.Machine.execRdata s
  | .poll => Sys2Proof.Machine.execPoll s
  | .setbl b => Sys2Proof.Machine.execSetbl b s
  | .init => Sys2Proof.Machine.execInit s

end Sys2Proof.Machine
end

