-- ==== Sys2Proof/Machine/Step.lean ====
section
/-! DEFINITION. One step: the host's next move is taken (10_state.md R44). A command is accepted, decoded and run to
its end (R36, R37, R86), `rst` resets (R149), and with no move the engine waits in `IDLE` (R151). -/

namespace Sys2Proof.Machine

/-- R86: decode, then the command's rule, or InvalidParameter. -/
def runWord (w : CmdWord) (s : State) : Host.Outcome State Fault Refusal :=
  match decode w with
  | some i => exec i s
  | none => .next (invalidParameter s)

/-- One step (log entries 1, 2). -/
def step (s : State) : Host.Outcome State Fault Refusal :=
  match s.host with
  | [] => whenReady s (.next s)
  | .issue w :: rest => whenReady s (runWord w (accept w none { s with host := rest }))
  | .reset c :: rest => doReset c { s with host := rest }
  | .issueReset w n c :: rest =>
    whenReady s (thenReset c (runWord w (accept w (some n) { s with host := rest })))

/-- `s` with the host about to issue the command whose table word is `w`, and the engine ready for it (log entry 2).
A command is one 16-bit word, so `nbits` adds nothing. -/
def State.withFetchWord (s : State) (_nbits w : Nat) : State :=
  { s with host := .issue (BitVec.ofNat 16 w) :: s.host, seq := .idle }

end Sys2Proof.Machine
end

