-- ==== Sys2Proof/Machine/Facade.lean ====
section
/-! DEFINITION. The controller's instruction bytes (30_encoding.md R90) and the facade's pseudo-instructions (R91):
which commands each operation of the public surface expands to. The facade is outside the block (00_scope.md R4), so
none of this is machine state or a step; log entry 19. -/

namespace Sys2Proof.Machine

/-- A bit of an instruction byte. -/
def flagBit (b : Bool) (i : Nat) : Byte :=
  if b then BitVec.twoPow 8 i else 0

/-- R90: clear display. -/
def clearByte : Byte := 0x01

/-- R90: return home. -/
def homeByte : Byte := 0x02

/-- R90: entry mode set. -/
def entryModeByte (increment shift : Bool) : Byte :=
  0x04 ||| flagBit increment 1 ||| flagBit shift 0

/-- R90: display on/off control. -/
def displayControlByte (display cursor blink : Bool) : Byte :=
  0x08 ||| flagBit display 2 ||| flagBit cursor 1 ||| flagBit blink 0

/-- R90: cursor or display shift. -/
def shiftByte (display right : Bool) : Byte :=
  0x10 ||| flagBit display 3 ||| flagBit right 2

/-- R90: function set. -/
def functionSetByte (eightBit twoLines tallFont : Bool) : Byte :=
  0x20 ||| flagBit eightBit 4 ||| flagBit twoLines 3 ||| flagBit tallFont 2

/-- R90: set CGRAM address, `a` in 0..63. -/
def cgramByte (a : Nat) : Byte :=
  0x40 ||| BitVec.ofNat 8 a

/-- R90: set DDRAM address, `a` in 0..127. -/
def ddramByte (a : Nat) : Byte :=
  0x80 ||| BitVec.ofNat 8 a

/-- R91: the display geometry the facade is built for. -/
structure Geometry where
  cols : Nat
  rows : Nat
  deriving DecidableEq, Repr

/-- R4, R91: the flags the facade caches; they are no engine state. -/
structure FacadeFlags where
  display : Bool
  cursor : Bool
  blink : Bool
  increment : Bool
  shift : Bool
  deriving DecidableEq, Repr

/-- R91: the operations of the public surface. -/
inductive FacadeOp where
  /-- initialize, with the set-up the facade chooses: two lines, 5x10 font. -/
  | setUp (twoLines tallFont : Bool)
  | clearDisplay
  | returnHome
  | setEntryMode (increment shift : Bool)
  | displayOn (on : Bool)
  | cursorOn (on : Bool)
  | blinkOn (on : Bool)
  | shift (display right : Bool)
  /-- set-function(lines, font): the font is `width` x `height` dots. -/
  | setFunction (lines fontWidth fontHeight : Nat)
  | setCgramAddress (a : Nat)
  | setDdramAddress (a : Nat)
  | writeByte (data : Byte)
  | readStatus
  | readData
  | writeString (text : List Byte)
  | setCursorPos (column row : Nat)
  | backlight (on : Bool)
  deriving DecidableEq, Repr

/-- R91: `ROWOFF` = 0x00, 0x40, COLS, 0x40 + COLS. -/
def rowOffset (cols : Nat) : Nat → Option Nat
  | 0 => some 0x00
  | 1 => some 0x40
  | 2 => some cols
  | 3 => some (0x40 + cols)
  | _ => none

/-- R91: the DDRAM address of a column and a row within the geometry. DESIGN CHOICE (log entry 23): a cell within the
geometry whose address would be 128 or more (R90: `a` in 0..127), or whose row has no offset in R91, has none, so the
operation is InvalidParameter. -/
def cellAddress (g : Geometry) (column row : Nat) : Option Nat :=
  if column < g.cols ∧ row < g.rows then
    match rowOffset g.cols row with
    | some o => if o + column < 128 then some (o + column) else none
    | none => none
  else none

/-- R91: the address is that of some cell of the geometry, a cell of log entry 23 having none. -/
def withinGeometry (g : Geometry) (a : Nat) : Bool :=
  (List.range g.rows).any fun row =>
    (List.range g.cols).any fun column => cellAddress g column row == some a

/-- The display control command of the cached flags. -/
def displayControl (f : FacadeFlags) : Instr :=
  .wcmd false (displayControlByte f.display f.cursor f.blink)

/-- R91: what an operation issues, with the flags cached after it; `none` is InvalidParameter, before any command. -/
def facadeExpand (g : Geometry) (f : FacadeFlags) (op : FacadeOp) : Option (FacadeFlags × List Instr) :=
  match op with
  | .setUp twoLines tallFont =>
    some (f, [.init, .wcmd false (functionSetByte false twoLines tallFont), displayControl f,
      .wcmd true clearByte, .wcmd false (entryModeByte f.increment f.shift)])
  | .clearDisplay => some (f, [.wcmd true clearByte])
  | .returnHome => some (f, [.wcmd true homeByte])
  | .setEntryMode increment shift =>
    some ({ f with increment := increment, shift := shift }, [.wcmd false (entryModeByte increment shift)])
  | .displayOn on =>
    let f' := { f with display := on }
    some (f', [displayControl f'])
  | .cursorOn on =>
    let f' := { f with cursor := on }
    some (f', [displayControl f'])
  | .blinkOn on =>
    let f' := { f with blink := on }
    some (f', [displayControl f'])
  | .shift display right => some (f, [.wcmd false (shiftByte display right)])
  | .setFunction lines fontWidth fontHeight =>
    if (lines = 1 ∨ lines = 2) ∧ fontWidth = 5 ∧ (fontHeight = 8 ∨ fontHeight = 10) then
      some (f, [.wcmd false (functionSetByte false (lines == 2) (fontHeight == 10))])
    else none
  | .setCgramAddress a => if a ≤ 63 then some (f, [.wcmd false (cgramByte a)]) else none
  | .setDdramAddress a => if withinGeometry g a then some (f, [.wcmd false (ddramByte a)]) else none
  | .writeByte data => some (f, [.wdata data])
  | .readStatus => some (f, [.rstat])
  | .readData => some (f, [.rdata])
  | .writeString text => some (f, text.map .wdata)
  | .setCursorPos column row =>
    match cellAddress g column row with
    | some a => some (f, [.wcmd false (ddramByte a)])
    | none => none
  | .backlight on => some (f, [.setbl on])

end Sys2Proof.Machine
end

