-- ==== Sys2Proof/Safety.lean ====
section
/-! DEFINITION. The terms the claims use: what a run with good bus answers is, the traces the rules write down, the
state a command leaves, the invariant of every step, and the nibbles a trace latches. -/

namespace Sys2Proof.Machine

/-! ### Bus answers (20_memory.md R55) -/

/-- The answer is `Ok`. -/
def isOk : BusReply → Bool
  | .ok _ => true
  | .err _ => false
  | .never _ => false

/-- The byte of an `Ok` answer. -/
def replyData : BusReply → Byte
  | .ok data => data
  | .err _ => 0
  | .never _ => 0

/-- The next `n` bus operations all answer `Ok`: a narrowing of the oracle, stated as a premise (R55). -/
def opsOk (s : State) (n : Nat) : Prop :=
  ∀ k, k < n → isOk (replyAt s k) = true

/-- The byte the bus operation after `k` more of them returns. -/
def readAt (s : State) (k : Nat) : Byte :=
  replyData (replyAt s k)

/-! ### The traces of the cycles (41_nibble_engine.md R100, R103) -/

/-- R94: the port byte under a configuration and a backlight value. -/
def portByte (c : Config) (bl : Bool) (d : Nibble) (rs rw e : Bool) : Byte :=
  encodePins c.pinMap { d := d, rs := rs, rw := rw, e := e, bl := bl }

/-- R100: `N(d, rs)`, the six events of a nibble transaction that succeeds. -/
def txTrace (c : Config) (bl : Bool) (d : Nibble) (rs : Bool) : List Event :=
  [ .w (portByte c bl d rs false false) false, .d c.tSetup,
    .w (portByte c bl d rs false true) false, .d c.tPw,
    .w (portByte c bl d rs false false) false, .d c.tSettle ]

/-- R103: `Q(rs, r)`, the seven events of a receive cycle that succeeds and reads `r`. -/
def rxTrace (c : Config) (bl : Bool) (rs : Bool) (r : Byte) : List Event :=
  let q0 := Event.w (portByte c bl 0xF rs true false) false
  let q1 := Event.w (portByte c bl 0xF rs true true) false
  match c.samplePoint with
  | .eHigh => [q0, .d c.tSetup, q1, .d c.tPw, .r r, q0, .d c.tSettle]
  | .afterPulse => [q0, .d c.tSetup, q1, .d c.tPw, q0, .r r, .d c.tSettle]

/-- R110: the trace of a byte transaction that succeeds. -/
def txByteTrace (c : Config) (bl : Bool) (b : Byte) (rs : Bool) : List Event :=
  txTrace c bl (highNibble b) rs ++ txTrace c bl (lowNibble b) rs

/-- R103, R104: which of the four bus operations of a receive cycle is the read, counted from 0. -/
def sampleIndex (c : Config) : Nat :=
  match c.samplePoint with
  | .eHigh => 2
  | .afterPulse => 3

/-- The byte read in the receive cycle that starts after `off` more bus operations. -/
def cycleRead (s : State) (off : Nat) : Byte :=
  readAt s (off + sampleIndex s.cfg)

/-- R79, R103: the nibble received in that cycle. -/
def cycleNibble (s : State) (off : Nat) : Nibble :=
  dataNibble s.cfg.pinMap (cycleRead s off)

/-- R120: the byte received in the two cycles that start after `off` more bus operations. -/
def byteReadAt (s : State) (off : Nat) : Byte :=
  joinNibbles (cycleNibble s off) (cycleNibble s (off + 4))

/-- R120: the trace of that byte read. -/
def byteReadTrace (s : State) (rs : Bool) (off : Nat) : List Event :=
  rxTrace s.cfg s.bl rs (cycleRead s off) ++ rxTrace s.cfg s.bl rs (cycleRead s (off + 4))

/-- R125: the status byte of status read number `j` (from 0) of a poll that starts after `off` more bus operations;
a status read takes eight (R51). -/
def pollByte (s : State) (off j : Nat) : Byte :=
  byteReadAt s (off + 8 * j)

/-- R125: the trace of `k` status reads, `D(T_POLL_GAP)` between each two. -/
def pollTrace (s : State) (off : Nat) : Nat → List Event
  | 0 => []
  | 1 => byteReadTrace s false off
  | k + 1 => pollTrace s off k ++ (.d s.cfg.tPollGap :: byteReadTrace s false (off + 8 * k))

/-- R125: a poll that starts after `off` more bus operations is idle for the first time at read number `k`. -/
def pollIdleAt (s : State) (off k : Nat) : Prop :=
  1 ≤ k ∧ k ≤ s.cfg.nPollMax.toNat ∧ (∀ j, j + 1 < k → busyFlag (pollByte s off j) = true) ∧
    busyFlag (pollByte s off (k - 1)) = false

/-- R126: every one of the `N_POLL_MAX` status reads of the poll reads BF = 1. -/
def pollAlwaysBusy (s : State) (off : Nat) : Prop :=
  ∀ j, j < s.cfg.nPollMax.toNat → busyFlag (pollByte s off j) = true

/-- Read registers after `k` status reads of a poll that starts after `off` more bus operations (R120, R121, R125). -/
def afterPoll (s : State) (off k : Nat) : State :=
  setPcount (BitVec.ofNat 16 k)
    (setStat (pollByte s off (k - 1))
      (setNibLo (cycleNibble s (off + 8 * (k - 1) + 4))
        (setNibHi (cycleNibble s (off + 8 * (k - 1))) s)))

/-- The state a command leaves when it ends with a response (R15, R16, R139) after the events `es`, `n` bus
operations of which the last write sent `last` to the expander and reached it. -/
def completed (s : State) (code : RspCode) (data : Byte) (es : List Event) (last : Byte) (n : Nat) : State :=
  { s with
    shadow := last
    mem := writeLatch s.mem s.cfg.i2cAddr last
    trace := s.trace ++ es
    replies := s.replies.drop n
    busCount := s.busCount + n
    rspCode := code
    rspData := data
    seq := .idle
    history := s.history ++
      [{ word := s.cmd, trace := s.trace ++ es, rsp := some { code := code, data := data } }] }

/-! ### What every step keeps -/

/-- The event is a bus operation that failed (R18). -/
def isFailed : Event → Bool
  | .w _ failed => failed
  | .r _ => false
  | .rFail => true
  | .d _ => false

/-- R132: the response data that goes with each code. -/
def responseWf (code : RspCode) (data : Byte) : Bool :=
  match code with
  | .ok => true
  | .busError => data == 0
  | .timeout => busyFlag data
  | .invalidParameter => data == 0

/-- R106, R139: no event follows a failed one. -/
def oneFailureLast (es : List Event) : Bool :=
  es.dropLast.all (fun e => !isFailed e)

/-- R139, R106, R135: no event follows a failed one, a failed one is there exactly when the response is BusError, and
InvalidParameter has no event. -/
def preciseTrace (code : RspCode) (es : List Event) : Bool :=
  oneFailureLast es
  && (es.getLast?.any isFailed == (code == .busError))
  && (code != .invalidParameter || es.isEmpty)

/-- R132, R139: one exchange of a run. -/
def exchangeWf (e : Exchange) : Bool :=
  match e.rsp with
  | some r => responseWf r.code r.data && preciseTrace r.code e.trace
  | none => oneFailureLast e.trace

/-- R23, R94, R97: the BL bit of the last byte issued is the backlight flag. -/
def backlightHeld (s : State) : Bool :=
  bitAt s.shadow s.cfg.pinMap.bl == s.bl

/-- R30: `pcount` never exceeds `N_POLL_MAX`. -/
def pcountBound (s : State) : Bool :=
  decide (s.pcount.toNat ≤ s.cfg.nPollMax.toNat)

/-- The invariant of the machine between steps: a legal configuration (R33), the latch memory in its canonical form,
`pcount` within its bound (R30, R168), the backlight bit of `shadow` equal to `bl`, response data that fit the
response code (R132), no event after a failed one in the trace and in every recorded exchange (R139), and no reset
pending. -/
def inv (s : State) : Bool :=
  s.cfg.legal && memoryWf s.mem && pcountBound s && backlightHeld s && responseWf s.rspCode s.rspData
    && oneFailureLast s.trace && s.history.all exchangeWf && (s.rstIn == none)

/-! ### What a trace does to the controller's lines (20_memory.md R54, 41_nibble_engine.md R101) -/

/-- The lines at one latch edge: E goes from 1 to 0. -/
structure Latched where
  rs : Bool
  rw : Bool
  d : Nibble
  deriving DecidableEq, Repr

/-- R54, R101: the latch edges of a trace whose writes all succeed, `prev` being the byte on the port before it. Taken
from `shadow` they are the engine's view: the expander's latch may hold another byte (R27, R108). -/
def latchEdges (pm : PinMap) (prev : Byte) : List Event → List Latched
  | [] => []
  | .w v _ :: es =>
    if bitAt prev pm.e && !bitAt v pm.e then
      { rs := bitAt v pm.rs, rw := bitAt v pm.rw, d := dataNibble pm v } :: latchEdges pm v es
    else latchEdges pm v es
  | .r _ :: es => latchEdges pm prev es
  | .rFail :: es => latchEdges pm prev es
  | .d _ :: es => latchEdges pm prev es

/-- R27: the last byte a trace hands to the bus, `prev` if there is none. -/
def lastWritten (prev : Byte) : List Event → Byte
  | [] => prev
  | .w v _ :: es => lastWritten v es
  | .r _ :: es => lastWritten prev es
  | .rFail :: es => lastWritten prev es
  | .d _ :: es => lastWritten prev es

/-- The event is a port write (R18). -/
def isWrite : Event → Bool
  | .w _ _ => true
  | .r _ => false
  | .rFail => false
  | .d _ => false

/-- The event is a port read, a failed one among them (R18). -/
def isRead : Event → Bool
  | .w _ _ => false
  | .r _ => true
  | .rFail => true
  | .d _ => false

/-- R165: the number of port writes of a trace. -/
def writeCount (es : List Event) : Nat :=
  es.countP isWrite

/-- R165: the number of port reads of a trace. -/
def readCount (es : List Event) : Nat :=
  es.countP isRead

/-- R167: the sum of the durations of a trace, a lower bound on the time it takes. -/
def minimumTime : List Event → Duration
  | [] => 0
  | .d t :: es => t + minimumTime es
  | .w _ _ :: es => minimumTime es
  | .r _ :: es => minimumTime es
  | .rFail :: es => minimumTime es

/-- R165: what a command that ended normally put on the bus: `w` port writes and `r` port reads. -/
def busCounts (s t : State) (w r : Nat) : Prop :=
  ∃ es, t.trace = s.trace ++ es ∧ writeCount es = w ∧ readCount es = r

/-! ### What a read byte's other bits cannot do (30_encoding.md R79) -/

/-- Two bus answers that differ at most in the bits of a read byte that carry no data line. -/
def sameAnswer (pm : PinMap) : BusReply → BusReply → Prop
  | .ok a, .ok b => dataNibble pm a = dataNibble pm b
  | .ok _, .err _ => False
  | .ok _, .never _ => False
  | .err a, .err b => a = b
  | .err _, .ok _ => False
  | .err _, .never _ => False
  | .never a, .never b => a = b
  | .never _, .ok _ => False
  | .never _, .err _ => False

/-- Two states that agree on all but what holds read bytes as they came: the trace, the record of the run and the
answers in place. -/
def sameRegisters (s t : State) : Prop :=
  t.bl = s.bl ∧ t.shadow = s.shadow ∧ t.cmd = s.cmd ∧ t.seq = s.seq ∧ t.nibHi = s.nibHi ∧ t.nibLo = s.nibLo ∧
    t.stat = s.stat ∧ t.pcount = s.pcount ∧ t.rspCode = s.rspCode ∧ t.rspData = s.rspData ∧ t.cfg = s.cfg ∧
    t.mem = s.mem ∧ t.host = s.host ∧ t.rstIn = s.rstIn ∧ t.busCount = s.busCount

end Sys2Proof.Machine
end

