-- ==== Sys2Proof/Certificates/Slice0/Obligations.lean ====
section
/-! DEFINITION. The statements for the provers. Every statement holds for every legal and illegal configuration, every
wiring, every oracle and every register content unless a premise says otherwise. -/

open Sys2Proof Sys2Proof.Machine

/-! ### The command word (30_encoding.md) -/

/-- O1. R86, R88: the decoder reads back every command from its word, with every operand at every value. -/
def Obligations.DecodeOfEncode : Prop :=
  ∀ i : Instr, decode (encode i) = some i

/-- O2. R74, R86: a word that decodes is the word of what it decodes to; no bit of it is dropped. -/
def Obligations.EncodeOfDecode : Prop :=
  ∀ (w : CmdWord) (i : Instr), decode w = some i → encode i = w

/-- O3. R74: no two rows of the opcode table match the same word, so the order of R86's loop does not matter. -/
def Obligations.OpcodeRowsDisjoint : Prop :=
  ∀ (w : CmdWord) (p q : OpRow), p ∈ opRows → q ∈ opRows → rowFits p w = true → rowFits q w = true → p = q

/-- O4. R74: a word matches a row of the table exactly when its fields have the values R70 allows. -/
def Obligations.LegalWordsByFields : Prop :=
  ∀ w : CmdWord, (decode w).isSome = (fieldsOf w).legal

/-- O5. R85: of the 65536 words 806 are legal. -/
def Obligations.LegalWordCount : Prop :=
  (Finset.univ.filter fun w : CmdWord => (decode w).isSome = true).card = 806

/-- O6. R88: words written out from the spec's table decode to the commands they stand for. -/
def Obligations.WordsOfTheTable : Prop :=
  decode 0x1003#16 = some (.wnib false 3#4) ∧ decode 0x180F#16 = some (.wnib true 15#4) ∧
  decode 0x2028#16 = some (.wcmd false 0x28#8) ∧ decode 0x2401#16 = some (.wcmd true 0x01#8) ∧
  decode 0x2841#16 = some (.wdata 0x41#8) ∧ decode 0x3000#16 = some .rstat ∧ decode 0x3800#16 = some .rdata ∧
  decode 0x4000#16 = some .poll ∧ decode 0x5000#16 = some (.setbl false) ∧
  decode 0x5200#16 = some (.setbl true) ∧ decode 0x6000#16 = some .init ∧
  decode 0x2C41#16 = none ∧ decode 0x4800#16 = none ∧ decode 0x1013#16 = none

/-- O7. R88: the word of each command, as an expression in its operands. -/
def Obligations.EncodeExpressions : Prop :=
  (∀ (rs : Bool) (n : Nibble), (encode (.wnib rs n)).toNat = 0x1000 + rs.toNat * 2 ^ 11 + n.toNat) ∧
  (∀ b : Byte, (encode (.wcmd false b)).toNat = 0x2000 + b.toNat) ∧
  (∀ b : Byte, (encode (.wcmd true b)).toNat = 0x2400 + b.toNat) ∧
  (∀ b : Byte, (encode (.wdata b)).toNat = 0x2800 + b.toNat) ∧
  encode .rstat = 0x3000#16 ∧ encode .rdata = 0x3800#16 ∧ encode .poll = 0x4000#16 ∧
  (∀ v : Bool, (encode (.setbl v)).toNat = 0x5000 + v.toNat * 2 ^ 9) ∧
  encode .init = 0x6000#16

/-! ### The port byte and the nibbles (30_encoding.md, 40_port_serializer.md) -/

/-- O8. R93: for an injective wiring `encode` is a bijection, with the inverse R93 writes. -/
def Obligations.PortByteBijection : Prop :=
  ∀ pm : PinMap, pm.injective = true →
    (∀ p : PinState, decodePins pm (encodePins pm p) = p) ∧ (∀ v : Byte, encodePins pm (decodePins pm v) = v)

/-- O9. R75: bit `PINMAP(L)` of the port byte is the value of line `L`, for each of the eight lines; under `DOCMAP` the
byte is `bl*0x80 + e*0x40 + rw*0x20 + rs*0x10 + d`. -/
def Obligations.PortByteBits : Prop :=
  (∀ (pm : PinMap) (p : PinState), pm.injective = true →
    bitAt (encodePins pm p) pm.d4 = p.d.getLsbD 0 ∧ bitAt (encodePins pm p) pm.d5 = p.d.getLsbD 1 ∧
    bitAt (encodePins pm p) pm.d6 = p.d.getLsbD 2 ∧ bitAt (encodePins pm p) pm.d7 = p.d.getLsbD 3 ∧
    bitAt (encodePins pm p) pm.rs = p.rs ∧ bitAt (encodePins pm p) pm.rw = p.rw ∧
    bitAt (encodePins pm p) pm.e = p.e ∧ bitAt (encodePins pm p) pm.bl = p.bl) ∧
  (∀ (d : Nibble) (rs rw e bl : Bool),
    (encodePins docMap { d := d, rs := rs, rw := rw, e := e, bl := bl }).toNat =
      bl.toNat * 0x80 + e.toNat * 0x40 + rw.toNat * 0x20 + rs.toNat * 0x10 + d.toNat)

/-- O10. R79: the nibble of a read byte depends on its four data-line bits alone; under `DOCMAP` it is `r[3:0]`. -/
def Obligations.ReadNibbleBits : Prop :=
  (∀ (pm : PinMap) (r : Byte),
    dataNibble pm r = BitVec.ofBool (r.getLsbD pm.d7.val) ++ BitVec.ofBool (r.getLsbD pm.d6.val)
      ++ BitVec.ofBool (r.getLsbD pm.d5.val) ++ BitVec.ofBool (r.getLsbD pm.d4.val)) ∧
  (∀ (pm : PinMap) (r r' : Byte), bitAt r pm.d4 = bitAt r' pm.d4 → bitAt r pm.d5 = bitAt r' pm.d5 →
    bitAt r pm.d6 = bitAt r' pm.d6 → bitAt r pm.d7 = bitAt r' pm.d7 → dataNibble pm r = dataNibble pm r') ∧
  (∀ r : Byte, dataNibble docMap r = r.setWidth 4)

/-- O11. R80: the nibble split and the assembly undo each other. -/
def Obligations.NibbleRoundTrip : Prop :=
  (∀ b : Byte, joinNibbles (highNibble b) (lowNibble b) = b) ∧
  (∀ hi lo : Nibble, highNibble (joinNibbles hi lo) = hi ∧ lowNibble (joinNibbles hi lo) = lo)

/-- O12. R81: BF and AC of a status byte, from the byte and from its two nibbles. -/
def Obligations.StatusByteFields : Prop :=
  ∀ hi lo : Nibble,
    busyFlag (joinNibbles hi lo) = hi.getLsbD 3 ∧
    addressCounter (joinNibbles hi lo) = hi.setWidth 3 ++ lo ∧
    (∀ s : Byte, (s.toNat = (busyFlag s).toNat * 128 + (addressCounter s).toNat))

/-! ### Reset, acceptance and the step (10_state.md, 70_reset_and_hazards.md) -/

/-- O13. R41: the values of every register after power-up under a configuration. That of `cmd`, which R41 leaves open,
is not stated. -/
def Obligations.ResetValues : Prop :=
  ∀ c : Config,
    let s := State.resetWith c
    s.seq = .idle ∧ s.bl = c.blInit ∧
    s.shadow = encodePins c.pinMap { d := 0, rs := false, rw := false, e := false, bl := c.blInit } ∧
    (c.pinMap = docMap → s.shadow = if c.blInit then 0x80#8 else 0x00#8) ∧
    s.nibHi = 0 ∧ s.nibLo = 0 ∧ s.stat = 0 ∧ s.pcount = 0 ∧ s.rspCode = .ok ∧ s.rspData = 0 ∧ s.cfg = c ∧
    s.history = [] ∧ s.trace = []

/-- O14. R41, R149, R150, R7: a reset between commands, or while a bus operation is outstanding, puts every register
at its reset value, samples the configuration, issues no bus operation and presents no response; the latch is not
touched. -/
def Obligations.ResetFromAnyState : Prop :=
  ∀ (s : State) (c : Config) (rest : List HostMove), s.host = .reset c :: rest → c.legal = true →
    ∃ t, step s = .next t ∧
      t.seq = .idle ∧ t.bl = c.blInit ∧
      t.shadow = encodePins c.pinMap { d := 0, rs := false, rw := false, e := false, bl := c.blInit } ∧
      t.nibHi = 0 ∧ t.nibLo = 0 ∧ t.stat = 0 ∧ t.pcount = 0 ∧ t.rspCode = .ok ∧ t.rspData = 0 ∧ t.cfg = c ∧
      t.host = rest ∧ t.mem = s.mem ∧ t.busCount = s.busCount ∧ t.replies = s.replies ∧
      t.history = (if s.seq = .busy then s.history ++ [{ word := s.cmd, trace := s.trace, rsp := none }] else s.history)

/-- O15. R150, R151: `rst` after `n` events of a command resets the engine in that step; the command makes at most `n`
events, and its response is presented only if it ended before `rst` came. -/
def Obligations.ResetDuringCommand : Prop :=
  ∀ (s : State) (w : CmdWord) (n : Nat) (c : Config) (rest : List HostMove),
    s.host = .issueReset w n c :: rest → s.cfg.legal = true → s.seq = .idle → c.legal = true →
    ∃ t e, step s = .next t ∧
      t.seq = .idle ∧ t.bl = c.blInit ∧ t.shadow = resetShadow c ∧ t.nibHi = 0 ∧ t.nibLo = 0 ∧ t.stat = 0 ∧
      t.pcount = 0 ∧ t.rspCode = .ok ∧ t.rspData = 0 ∧ t.cfg = c ∧ t.host = rest ∧ t.rstIn = none ∧
      t.history = s.history ++ [e] ∧ e.word = w ∧ e.trace.length ≤ n ∧ (e.rsp ≠ none → e.trace.length < n)

/-- O16. R37, R86: a step takes the host's command in `IDLE`: `cmd` and `seq` are written, and what then runs is exactly
the decoded command. -/
def Obligations.StepRunsDecoded : Prop :=
  ∀ (s : State) (w : CmdWord) (rest : List HostMove) (i : Instr),
    s.host = .issue w :: rest → s.cfg.legal = true → s.seq = .idle → decode w = some i →
    step s = exec i { s with cmd := w, seq := .busy, trace := [], rstIn := none, host := rest }

/-- O17. R83, R84, R135: an illegal word ends with InvalidParameter, with no bus operation and no wait, and changes
nothing but `cmd`, `seq` and the response registers; how the host's move is taken and the exchange recorded is the
model's form (log entries 2 and 11). -/
def Obligations.IllegalWordAnswered : Prop :=
  ∀ (s : State) (w : CmdWord) (rest : List HostMove),
    s.host = .issue w :: rest → s.cfg.legal = true → s.seq = .idle → (fieldsOf w).legal = false →
    step s = .next
      { s with
        cmd := w
        trace := []
        rstIn := none
        host := rest
        rspCode := .invalidParameter
        rspData := 0
        history := s.history ++
          [{ word := w, trace := [], rsp := some { code := .invalidParameter, data := 0 } }] }

/-- O18. R83: every word whose `op` is 0x0 or 0x7..0xF is illegal. -/
def Obligations.ReservedOpcodesIllegal : Prop :=
  ∀ w : CmdWord, ((fieldsOf w).op = 0 ∨ 7 ≤ (fieldsOf w).op.toNat) → decode w = none

/-- O19. R37 and 93_implementation_defined.md S1, S12: while `seq` = `BUSY` no command is accepted; with no reset, no
step is enabled (the fault is the model's name for that, log entry 6). -/
def Obligations.BusyAcceptsNothing : Prop :=
  ∀ s : State, s.cfg.legal = true → s.seq = .busy → (∀ c rest, s.host ≠ .reset c :: rest) →
    step s = .fault .stuckBusy

/-- O20. R151: with no move of the host the engine waits in `IDLE` (the unchanged state is the model's form of waiting,
log entry 17). -/
def Obligations.IdleWaits : Prop :=
  ∀ s : State, s.host = [] → s.cfg.legal = true → s.seq = .idle → step s = .next s

/-- O21. R33, R119: a configuration that is not legal is refused, both the one in force and one a reset would sample. -/
def Obligations.IllegalConfigRefused : Prop :=
  (∀ s : State, s.cfg.legal = false → (∀ c rest, s.host ≠ .reset c :: rest) → step s = .refused .illegalConfig) ∧
  (∀ (s : State) (c : Config) (rest : List HostMove), s.host = .reset c :: rest → c.legal = false →
    step s = .refused .illegalConfig) ∧
  (∀ c : Config, c.legal = true ↔
    c.pinMap.indices.Nodup ∧ c.nPollMax ≠ 0 ∧ 0 < c.tPw ∧ (c.readPath = .absent → c.syncMode = .fixed))

/-- O22. R42: `cmd` is never read while `seq` = `IDLE`: whatever it holds, the step is the same, but for `cmd` itself
where no command is accepted (that waiting is a step to the same state is the model's choice, log entry 17). -/
def Obligations.CmdUnreadInIdle : Prop :=
  ∀ (s : State) (x : CmdWord), s.seq = .idle →
    (s.host ≠ [] → step { s with cmd := x } = step s) ∧
    (s.host = [] → s.cfg.legal = true → step { s with cmd := x } = .next { s with cmd := x })

/-- O23. The invariant holds after every reset under a legal configuration. -/
def Obligations.InvAfterReset : Prop :=
  inv State.reset = true ∧ ∀ c : Config, c.legal = true → inv (State.resetWith c) = true

/-- O24. Every step keeps the invariant: a legal configuration, the latch memory in its canonical form, `pcount` within
`N_POLL_MAX` (R30, R168), the BL bit of `shadow` equal to `bl` (R94, R97), response data that fit the code (R132), and
no event after a failed one in any trace of the run (R139). -/
def Obligations.StepKeepsInv : Prop :=
  ∀ s t : State, inv s = true → step s = .next t → inv t = true

/-! ### What every command does, whatever the bus answers -/

/-- O25. R132, R139, R140: a command that no reset cuts short ends with exactly one response, which is recorded with
the command's trace; a failed bus operation is the last event exactly when the code is BusError, InvalidParameter has
no event, and the response data fit the code. The one other way is that a bus operation never returns: then no response
is presented and the response registers stay. -/
def Obligations.OneResponsePerCommand : Prop :=
  ∀ (i : Instr) (s : State), s.rstIn = none →
    ∃ t es, exec i s = .next t ∧ t.trace = s.trace ++ es ∧
      ((∃ code data, t.rspCode = code ∧ t.rspData = data ∧ t.seq = .idle ∧
          t.history = s.history ++ [{ word := s.cmd, trace := t.trace, rsp := some { code := code, data := data } }] ∧
          preciseTrace code es = true ∧ responseWf code data = true) ∨
       (t.rspCode = s.rspCode ∧ t.rspData = s.rspData ∧ t.seq = s.seq ∧ t.history = s.history ∧
          (∀ e ∈ es, isFailed e = false) ∧
          ∃ n landed, replyAt s n = .never landed ∧ t.busCount = s.busCount + (n + 1)))

/-- O26. R94, R97: every byte any command writes carries the backlight flag, the new one for SETBL. -/
def Obligations.EveryWriteCarriesBacklight : Prop :=
  ∀ (i : Instr) (s t : State), exec i s = .next t →
    ∃ es, t.trace = s.trace ++ es ∧ ∀ v f, Event.w v f ∈ es → bitAt v s.cfg.pinMap.bl = t.bl

/-- O27. R27: after any command `shadow` is the last byte handed to the bus, whether or not that write failed or
returned, and what it was if there was no write. -/
def Obligations.ShadowIsLastWritten : Prop :=
  ∀ (i : Instr) (s t : State), exec i s = .next t →
    ∃ es, t.trace = s.trace ++ es ∧ t.shadow = lastWritten s.shadow es

/-- O28. R24, R26, R37, R171: no command writes the configuration, `cmd` or the host's moves; only SETBL writes `bl`;
no latch but the one at `I2C_ADDR` changes (R53). -/
def Obligations.FrameOfEveryCommand : Prop :=
  ∀ (i : Instr) (s t : State), exec i s = .next t →
    t.cfg = s.cfg ∧ t.cmd = s.cmd ∧ t.host = s.host ∧
    ((∀ b, i ≠ .setbl b) → t.bl = s.bl) ∧ (∀ b, i = .setbl b → t.bl = b) ∧
    (∀ a : I2cAddr, a ≠ s.cfg.i2cAddr → readLatch t.mem a = readLatch s.mem a)

/-- O29. R28, R29, R30, R107: which of `nib_hi`, `nib_lo`, `stat` and `pcount` each command leaves alone. WNIB, SETBL
and INIT leave all four; so do WCMD and WDATA in `FIXED` mode; RDATA in `FIXED` mode leaves `stat` and `pcount`; RSTAT
leaves `pcount`. -/
def Obligations.FrameOfReadRegisters : Prop :=
  ∀ (s t : State),
    let all := t.nibHi = s.nibHi ∧ t.nibLo = s.nibLo ∧ t.stat = s.stat ∧ t.pcount = s.pcount
    (∀ rs n, exec (.wnib rs n) s = .next t → all) ∧
    (∀ b, exec (.setbl b) s = .next t → all) ∧
    (exec .init s = .next t → all) ∧
    (∀ lw b, s.cfg.syncMode = .fixed → exec (.wcmd lw b) s = .next t → all) ∧
    (∀ b, s.cfg.syncMode = .fixed → exec (.wdata b) s = .next t → all) ∧
    (s.cfg.syncMode = .fixed → exec .rdata s = .next t → t.stat = s.stat ∧ t.pcount = s.pcount) ∧
    (exec .rstat s = .next t → t.pcount = s.pcount)

/-- O30. R79: the bits of a read byte that carry no data line influence no register: two runs of a command whose bus
answers differ only in such bits leave the same registers, latch and response. -/
def Obligations.OtherReadBitsIgnored : Prop :=
  ∀ (i : Instr) (s s' t t' : State), sameRegisters s s' →
    (∀ k, sameAnswer s.cfg.pinMap (replyAt s k) (replyAt s' k)) →
    exec i s = .next t → exec i s' = .next t' → sameRegisters t t'

/-- O31. R165: the port writes and port reads of every command that ends with OK; `k`, the number of status reads of
its poll, is what `pcount` then holds. -/
def Obligations.BusOperationCounts : Prop :=
  ∀ (i : Instr) (s t : State), s.cfg.legal = true → s.rstIn = none → exec i s = .next t →
    t.history = s.history ++ [{ word := s.cmd, trace := t.trace, rsp := some { code := .ok, data := t.rspData } }] →
    let k := t.pcount.toNat
    match i, s.cfg.syncMode with
    | .wnib _ _, _ => busCounts s t 3 0
    | .setbl _, _ => busCounts s t 1 0
    | .init, _ => busCounts s t 12 0
    | .rstat, _ => busCounts s t 6 2
    | .poll, _ => 1 ≤ k ∧ k ≤ s.cfg.nPollMax.toNat ∧ busCounts s t (6 * k) (2 * k)
    | .wcmd _ _, .fixed => busCounts s t 6 0
    | .wcmd _ _, .poll => 1 ≤ k ∧ k ≤ s.cfg.nPollMax.toNat ∧ busCounts s t (6 + 6 * k) (2 * k)
    | .wdata _, .fixed => busCounts s t 6 0
    | .wdata _, .poll => 1 ≤ k ∧ k ≤ s.cfg.nPollMax.toNat ∧ busCounts s t (6 + 6 * k) (2 * k)
    | .rdata, .fixed => busCounts s t 6 2
    | .rdata, .poll => 1 ≤ k ∧ k ≤ s.cfg.nPollMax.toNat ∧ busCounts s t (6 + 6 * k) (2 + 2 * k)

/-! ### WNIB and SETBL -/

/-- O32. R109, R100: WNIB with three writes that succeed. -/
def Obligations.WnibResult : Prop :=
  ∀ (s : State) (rs : Bool) (n : Nibble), s.rstIn = none → opsOk s 3 →
    exec (.wnib rs n) s = .next
      (completed s .ok 0 (txTrace s.cfg s.bl n rs) (portByte s.cfg s.bl n rs false false) 3)

/-- O33. R108, R106: WNIB whose write number `m` (from 0) fails: the trace ends at that write, `shadow` holds its byte,
the latch holds that byte or what it held before, and the response is BusError with data 0x00. -/
def Obligations.WnibBusError : Prop :=
  ∀ (s : State) (rs : Bool) (n : Nibble) (m : Nat) (landed : Bool),
    s.rstIn = none → m < 3 → opsOk s m → replyAt s m = .err landed →
    let e0 := portByte s.cfg s.bl n rs false false
    let e1 := portByte s.cfg s.bl n rs false true
    let v := if m = 1 then e1 else e0
    let before := if m = 0 then readLatch s.mem s.cfg.i2cAddr else if m = 1 then some e0 else some e1
    ∃ t, exec (.wnib rs n) s = .next t ∧ t.shadow = v ∧
      t.trace = s.trace ++ ((txTrace s.cfg s.bl n rs).take (2 * m) ++ [.w v true]) ∧
      t.rspCode = .busError ∧ t.rspData = 0 ∧ t.seq = .idle ∧
      readLatch t.mem s.cfg.i2cAddr = (if landed then some v else before)

/-- O34. R97: SETBL with a write that succeeds: `bl` is the operand, and the byte sent is `shadow` with its BL bit
replaced. -/
def Obligations.SetblResult : Prop :=
  ∀ (s : State) (b : Bool), s.rstIn = none → opsOk s 1 →
    let v := setBitAt s.shadow s.cfg.pinMap.bl b
    exec (.setbl b) s = .next (completed { s with bl := b } .ok 0 [.w v false] v 1)

/-- O35. R98: SETBL whose write fails keeps the new `bl` and the new `shadow`, so every byte composed after it carries
the requested backlight state. -/
def Obligations.SetblBusError : Prop :=
  ∀ (s : State) (b landed : Bool), s.rstIn = none → replyAt s 0 = .err landed →
    let v := setBitAt s.shadow s.cfg.pinMap.bl b
    ∃ t, exec (.setbl b) s = .next t ∧ t.bl = b ∧ t.shadow = v ∧ t.trace = s.trace ++ [.w v true] ∧
      t.rspCode = .busError ∧ t.rspData = 0 ∧ t.seq = .idle ∧
      ∀ d rs rw e, bitAt (port d rs rw e t) t.cfg.pinMap.bl = b

/-- O36. R99: the byte SETBL writes differs from `shadow` before the command in at most the BL bit. -/
def Obligations.BacklightIsolation : Prop :=
  ∀ (s t : State) (b : Bool), exec (.setbl b) s = .next t →
    ∃ es, t.trace = s.trace ++ es ∧ ∀ v f, Event.w v f ∈ es →
      v ^^^ s.shadow = 0#8 ∨ v ^^^ s.shadow = BitVec.twoPow 8 s.cfg.pinMap.bl.val

/-- O37. R54, R97, R156: measured from `shadow`, SETBL makes no edge of E from 1 to 0, whatever E is in `shadow`; it keeps
that E as it was. Where the expander's latch differs from `shadow` (R108) this says nothing about the latch. -/
def Obligations.SetblMakesNoEdge : Prop :=
  ∀ (s t : State) (b : Bool), s.cfg.pinMap.injective = true → exec (.setbl b) s = .next t →
    bitAt t.shadow s.cfg.pinMap.e = bitAt s.shadow s.cfg.pinMap.e ∧
    ∃ es, t.trace = s.trace ++ es ∧ latchEdges s.cfg.pinMap s.shadow es = []

/-! ### WCMD, WDATA and INIT -/

/-- O38. R113, R110, R124: WCMD in `FIXED` mode with six writes that succeed, in both execution-time classes. -/
def Obligations.WcmdFixedResult : Prop :=
  ∀ (s : State) (lw : Bool) (b : Byte), s.rstIn = none → s.cfg.syncMode = .fixed → opsOk s 6 →
    exec (.wcmd lw b) s = .next
      (completed s .ok 0
        (txTrace s.cfg s.bl (highNibble b) false ++ txTrace s.cfg s.bl (lowNibble b) false
          ++ [.d (if lw then s.cfg.tExecLong else s.cfg.tExecShort)])
        (portByte s.cfg s.bl (lowNibble b) false false false) 6)

/-- O39. R114, R110: WDATA in `FIXED` mode with six writes that succeed. -/
def Obligations.WdataFixedResult : Prop :=
  ∀ (s : State) (b : Byte), s.rstIn = none → s.cfg.syncMode = .fixed → opsOk s 6 →
    exec (.wdata b) s = .next
      (completed s .ok 0
        (txTrace s.cfg s.bl (highNibble b) true ++ txTrace s.cfg s.bl (lowNibble b) true ++ [.d s.cfg.tExecShort])
        (portByte s.cfg s.bl (lowNibble b) true false false) 6)

/-- O40. R113, R114, R123, R125: WCMD (either class) and WDATA in `POLL` mode, whose poll finds BF = 0 first at status
read `k`: `stat`, the nibbles and `pcount` are the poll's, and the response data is the last status byte. -/
def Obligations.WritePollResult : Prop :=
  ∀ (s : State) (k : Nat), s.rstIn = none → s.cfg.syncMode = .poll → pollIdleAt s 6 k → opsOk s (6 + 8 * k) →
    (∀ lw b, exec (.wcmd lw b) s = .next
      (completed (afterPoll s 6 k) .ok (pollByte s 6 (k - 1))
        (txByteTrace s.cfg s.bl b false ++ pollTrace s 6 k)
        (portByte s.cfg s.bl 0xF false true false) (6 + 8 * k))) ∧
    (∀ b, exec (.wdata b) s = .next
      (completed (afterPoll s 6 k) .ok (pollByte s 6 (k - 1))
        (txByteTrace s.cfg s.bl b true ++ pollTrace s 6 k)
        (portByte s.cfg s.bl 0xF false true false) (6 + 8 * k)))

/-- O41. R126, R134: WCMD and WDATA in `POLL` mode whose poll reads busy `N_POLL_MAX` times: the byte has been sent
whole, the response is Timeout with the last status byte, and nothing follows. -/
def Obligations.WritePollTimeout : Prop :=
  ∀ s : State, s.rstIn = none → s.cfg.legal = true → s.cfg.syncMode = .poll → pollAlwaysBusy s 6 →
    opsOk s (6 + 8 * s.cfg.nPollMax.toNat) →
    let k := s.cfg.nPollMax.toNat
    (∀ lw b, exec (.wcmd lw b) s = .next
      (completed (afterPoll s 6 k) .timeout (pollByte s 6 (k - 1))
        (txByteTrace s.cfg s.bl b false ++ pollTrace s 6 k)
        (portByte s.cfg s.bl 0xF false true false) (6 + 8 * k))) ∧
    (∀ b, exec (.wdata b) s = .next
      (completed (afterPoll s 6 k) .timeout (pollByte s 6 (k - 1))
        (txByteTrace s.cfg s.bl b true ++ pollTrace s 6 k)
        (portByte s.cfg s.bl 0xF false true false) (6 + 8 * k)))

/-- O42. R115: INIT with twelve writes that succeed: four single nibbles, the fixed gaps, no low nibble. -/
def Obligations.InitResult : Prop :=
  ∀ s : State, s.rstIn = none → opsOk s 12 →
    exec .init s = .next
      (completed s .ok 0
        ([.d s.cfg.tInit0] ++ txTrace s.cfg s.bl s.cfg.fs8 false
          ++ [.d s.cfg.tInit1] ++ txTrace s.cfg s.bl s.cfg.fs8 false
          ++ [.d s.cfg.tInit2] ++ txTrace s.cfg s.bl s.cfg.fs8 false
          ++ [.d s.cfg.tInit3] ++ txTrace s.cfg s.bl s.cfg.fs4 false ++ [.d s.cfg.tExecShort])
        (portByte s.cfg s.bl s.cfg.fs4 false false false) 12)

/-- O43. R116: INIT makes no port read, whatever `SYNC_MODE` is and whatever the bus answers. -/
def Obligations.InitNeverPolls : Prop :=
  ∀ s t : State, exec .init s = .next t →
    ∃ es, t.trace = s.trace ++ es ∧ ∀ e ∈ es, isRead e = false

/-- O44. R47, R54, R101, and the round trip of §8: with E low in `shadow` before the command, the nibbles that the latch
edges of a successful command, measured from `shadow`, carry are the operand's, high nibble first, with the command's RS
and RW = 0. An expander's latch with E high where `shadow` has it low (R108) would see an edge more. -/
def Obligations.LatchedNibbles : Prop :=
  ∀ s : State, s.rstIn = none → s.cfg.pinMap.injective = true → bitAt s.shadow s.cfg.pinMap.e = false →
    (∀ rs n, opsOk s 3 → ∃ t es, exec (.wnib rs n) s = .next t ∧ t.trace = s.trace ++ es ∧
      latchEdges s.cfg.pinMap s.shadow es = [{ rs := rs, rw := false, d := n }]) ∧
    (∀ lw b, s.cfg.syncMode = .fixed → opsOk s 6 → ∃ t es hi lo, exec (.wcmd lw b) s = .next t ∧
      t.trace = s.trace ++ es ∧ joinNibbles hi lo = b ∧
      latchEdges s.cfg.pinMap s.shadow es =
        [{ rs := false, rw := false, d := hi }, { rs := false, rw := false, d := lo }]) ∧
    (∀ b, s.cfg.syncMode = .fixed → opsOk s 6 → ∃ t es hi lo, exec (.wdata b) s = .next t ∧
      t.trace = s.trace ++ es ∧ joinNibbles hi lo = b ∧
      latchEdges s.cfg.pinMap s.shadow es =
        [{ rs := true, rw := false, d := hi }, { rs := true, rw := false, d := lo }]) ∧
    (opsOk s 12 → ∃ t es, exec .init s = .next t ∧ t.trace = s.trace ++ es ∧
      latchEdges s.cfg.pinMap s.shadow es =
        [{ rs := false, rw := false, d := s.cfg.fs8 }, { rs := false, rw := false, d := s.cfg.fs8 },
         { rs := false, rw := false, d := s.cfg.fs8 }, { rs := false, rw := false, d := s.cfg.fs4 }])

/-- O45. R156: with E high in `shadow`, the first write of the next nibble transaction is, measured from `shadow`, itself a
latch edge, with that write's data lines: the trace of WNIB then has two. An expander's latch that did not take the E = 1
(R108) sees one. -/
def Obligations.EnableLeftHigh : Prop :=
  ∀ (s : State) (rs : Bool) (n : Nibble), s.rstIn = none → s.cfg.pinMap.injective = true →
    bitAt s.shadow s.cfg.pinMap.e = true → opsOk s 3 →
    ∃ t es, exec (.wnib rs n) s = .next t ∧ t.trace = s.trace ++ es ∧
      latchEdges s.cfg.pinMap s.shadow es = [{ rs := rs, rw := false, d := n }, { rs := rs, rw := false, d := n }]

/-- O46. R167: the least time of WCMD in `FIXED` mode. -/
def Obligations.WcmdLeastTime : Prop :=
  ∀ (s : State) (lw : Bool) (b : Byte), s.rstIn = none → s.cfg.syncMode = .fixed → opsOk s 6 →
    ∃ t es, exec (.wcmd lw b) s = .next t ∧ t.trace = s.trace ++ es ∧
      minimumTime es = 2 * (s.cfg.tSetup + s.cfg.tPw + s.cfg.tSettle)
        + (if lw then s.cfg.tExecLong else s.cfg.tExecShort)

/-! ### RSTAT, RDATA and POLL -/

/-- O47. R128, R120, R121: RSTAT with eight bus operations that succeed, at both sample points; it does not wait for
BF = 0. -/
def Obligations.RstatResult : Prop :=
  ∀ s : State, s.rstIn = none → s.cfg.readPath = .present → opsOk s 8 →
    let hi := dataNibble s.cfg.pinMap (readAt s (sampleIndex s.cfg))
    let lo := dataNibble s.cfg.pinMap (readAt s (4 + sampleIndex s.cfg))
    exec .rstat s = .next
      (completed { s with nibHi := hi, nibLo := lo, stat := joinNibbles hi lo } .ok (joinNibbles hi lo)
        (rxTrace s.cfg s.bl false (readAt s (sampleIndex s.cfg))
          ++ rxTrace s.cfg s.bl false (readAt s (4 + sampleIndex s.cfg)))
        (portByte s.cfg s.bl 0xF false true false) 8)

/-- O48. R121: RSTAT writes `stat` only when both nibbles have been received: if `stat` changed, the response, where
one is presented, is OK with that byte. -/
def Obligations.StatOnlyWhenWhole : Prop :=
  ∀ s t : State, s.rstIn = none → exec .rstat s = .next t → t.stat ≠ s.stat →
    t.rspCode = .ok ∧ t.rspData = t.stat ∧ t.stat = joinNibbles t.nibHi t.nibLo

/-- O49. R129, R120: RDATA in `FIXED` mode: the byte is the response data, `stat` is not written. -/
def Obligations.RdataFixedResult : Prop :=
  ∀ s : State, s.rstIn = none → s.cfg.readPath = .present → s.cfg.syncMode = .fixed → opsOk s 8 →
    let hi := dataNibble s.cfg.pinMap (readAt s (sampleIndex s.cfg))
    let lo := dataNibble s.cfg.pinMap (readAt s (4 + sampleIndex s.cfg))
    exec .rdata s = .next
      (completed { s with nibHi := hi, nibLo := lo } .ok (joinNibbles hi lo)
        (rxTrace s.cfg s.bl true (readAt s (sampleIndex s.cfg))
          ++ rxTrace s.cfg s.bl true (readAt s (4 + sampleIndex s.cfg)) ++ [.d s.cfg.tExecShort])
        (portByte s.cfg s.bl 0xF true true false) 8)

/-- O50. R129, R125: RDATA in `POLL` mode, whose poll finds BF = 0 first at status read `k`: the response data is the
data byte, the read registers are the poll's. -/
def Obligations.RdataPollResult : Prop :=
  ∀ (s : State) (k : Nat), s.rstIn = none → s.cfg.readPath = .present → s.cfg.syncMode = .poll →
    pollIdleAt s 8 k → opsOk s (8 + 8 * k) →
    exec .rdata s = .next
      (completed (afterPoll s 8 k) .ok (byteReadAt s 0) (byteReadTrace s true 0 ++ pollTrace s 8 k)
        (portByte s.cfg s.bl 0xF false true false) (8 + 8 * k))

/-- O51. R129, R134: RDATA whose sync times out answers Timeout with the last status byte; the data byte is lost. -/
def Obligations.RdataPollTimeout : Prop :=
  ∀ s : State, s.rstIn = none → s.cfg.legal = true → s.cfg.readPath = .present → s.cfg.syncMode = .poll →
    pollAlwaysBusy s 8 → opsOk s (8 + 8 * s.cfg.nPollMax.toNat) →
    let k := s.cfg.nPollMax.toNat
    exec .rdata s = .next
      (completed (afterPoll s 8 k) .timeout (pollByte s 8 (k - 1)) (byteReadTrace s true 0 ++ pollTrace s 8 k)
        (portByte s.cfg s.bl 0xF false true false) (8 + 8 * k))

/-- O52. R130, R125: POLL, in both sync modes, that finds BF = 0 first at status read `k`. -/
def Obligations.PollResult : Prop :=
  ∀ (s : State) (k : Nat), s.rstIn = none → s.cfg.readPath = .present → pollIdleAt s 0 k → opsOk s (8 * k) →
    exec .poll s = .next
      (completed (afterPoll s 0 k) .ok (pollByte s 0 (k - 1)) (pollTrace s 0 k)
        (portByte s.cfg s.bl 0xF false true false) (8 * k))

/-- O53. R126, R130: POLL that reads busy `N_POLL_MAX` times answers Timeout with the last status byte, makes no further
bus operation or wait, and leaves the engine in `IDLE`, where the next legal command is accepted and run. -/
def Obligations.PollTimeout : Prop :=
  ∀ s : State, s.rstIn = none → s.cfg.legal = true → s.cfg.readPath = .present → pollAlwaysBusy s 0 →
    opsOk s (8 * s.cfg.nPollMax.toNat) →
    let k := s.cfg.nPollMax.toNat
    let t := completed (afterPoll s 0 k) .timeout (pollByte s 0 (k - 1)) (pollTrace s 0 k)
        (portByte s.cfg s.bl 0xF false true false) (8 * k)
    exec .poll s = .next t ∧
    ∀ w rest i, s.host = .issue w :: rest → decode w = some i →
      step t = exec i (accept w none { t with host := rest })

/-- O54. R131: every byte POLL writes is one of the two of an RS = 0 receive cycle. -/
def Obligations.PollWritesReceiveBytes : Prop :=
  ∀ s t : State, exec .poll s = .next t →
    ∃ es, t.trace = s.trace ++ es ∧ ∀ v f, Event.w v f ∈ es →
      v = portByte s.cfg s.bl 0xF false true false ∨ v = portByte s.cfg s.bl 0xF false true true

/-- O55. R119: without the read path RSTAT, RDATA and POLL answer InvalidParameter, with no bus operation and no state
changed but the response and `seq`. -/
def Obligations.ReadPathAbsent : Prop :=
  ∀ (s : State) (i : Instr), s.rstIn = none → s.cfg.readPath = .absent → (i = .rstat ∨ i = .rdata ∨ i = .poll) →
    exec i s = .next
      { s with
        rspCode := .invalidParameter
        rspData := 0
        seq := .idle
        history := s.history ++
          [{ word := s.cmd, trace := s.trace, rsp := some { code := .invalidParameter, data := 0 } }] }

/-! ### The pseudo-instructions (30_encoding.md R89, R91) -/

/-- O56. R89: each engine-level pseudo-instruction is the word of the command it stands for. -/
def Obligations.PseudoWords : Prop :=
  (∀ b : Byte, (encode (expandPseudo (.wcmdl b))).toNat = 0x2400 + b.toNat) ∧
  encode (expandPseudo .blon) = 0x5200#16 ∧ encode (expandPseudo .bloff) = 0x5000#16 ∧
  (∀ n : Nibble, (encode (expandPseudo (.wnibi n))).toNat = 0x1000 + n.toNat)

/-- O57. R91: set-CGRAM-address is refused from 64 on, before any command, and is one WCMD below it; set-cursor-pos is
refused outside the geometry. -/
def Obligations.FacadeParameterChecks : Prop :=
  ∀ (g : Geometry) (f : FacadeFlags),
    (∀ a, 64 ≤ a → facadeExpand g f (.setCgramAddress a) = none) ∧
    (∀ a, a < 64 → ∃ b, facadeExpand g f (.setCgramAddress a) = some (f, [.wcmd false b]) ∧ b.toNat = 0x40 + a) ∧
    (∀ column row, (g.cols ≤ column ∨ g.rows ≤ row) → facadeExpand g f (.setCursorPos column row) = none)

/-- O58. R91: set-cursor-pos on a 20x4 display is one WCMD of 0x80 plus the row's offset (0x00, 0x40, 0x14, 0x54) plus
the column. -/
def Obligations.CursorPositionWords : Prop :=
  ∀ (f : FacadeFlags) (column row : Nat), column < 20 → row < 4 →
    ∃ b, facadeExpand { cols := 20, rows := 4 } f (.setCursorPos column row) = some (f, [.wcmd false b]) ∧
      b.toNat = 0x80 + (if row = 0 then 0x00 else if row = 1 then 0x40 else if row = 2 then 0x14 else 0x54) + column
end

