-- ==== Sys2Proof/Laws/State.lean ====
section
/-! SUPPORT. One lemma per field per update of State, so that no proof unfolds a record update. -/

namespace Sys2Proof.Machine

/-! ### logEvent (R18) -/

@[simp] theorem logEvent_bl (e : Event) (s : State) : (logEvent e s).bl = s.bl := rfl
@[simp] theorem logEvent_shadow (e : Event) (s : State) : (logEvent e s).shadow = s.shadow := rfl
@[simp] theorem logEvent_cmd (e : Event) (s : State) : (logEvent e s).cmd = s.cmd := rfl
@[simp] theorem logEvent_seq (e : Event) (s : State) : (logEvent e s).seq = s.seq := rfl
@[simp] theorem logEvent_nibHi (e : Event) (s : State) : (logEvent e s).nibHi = s.nibHi := rfl
@[simp] theorem logEvent_nibLo (e : Event) (s : State) : (logEvent e s).nibLo = s.nibLo := rfl
@[simp] theorem logEvent_stat (e : Event) (s : State) : (logEvent e s).stat = s.stat := rfl
@[simp] theorem logEvent_pcount (e : Event) (s : State) : (logEvent e s).pcount = s.pcount := rfl
@[simp] theorem logEvent_rspCode (e : Event) (s : State) : (logEvent e s).rspCode = s.rspCode := rfl
@[simp] theorem logEvent_rspData (e : Event) (s : State) : (logEvent e s).rspData = s.rspData := rfl
@[simp] theorem logEvent_cfg (e : Event) (s : State) : (logEvent e s).cfg = s.cfg := rfl
@[simp] theorem logEvent_trace (e : Event) (s : State) : (logEvent e s).trace = s.trace ++ [e] := rfl
@[simp] theorem logEvent_history (e : Event) (s : State) : (logEvent e s).history = s.history := rfl
@[simp] theorem logEvent_mem (e : Event) (s : State) : (logEvent e s).mem = s.mem := rfl
@[simp] theorem logEvent_host (e : Event) (s : State) : (logEvent e s).host = s.host := rfl
@[simp] theorem logEvent_rstIn (e : Event) (s : State) : (logEvent e s).rstIn = s.rstIn := rfl
@[simp] theorem logEvent_replies (e : Event) (s : State) : (logEvent e s).replies = s.replies := rfl
@[simp] theorem logEvent_busCount (e : Event) (s : State) : (logEvent e s).busCount = s.busCount := rfl

/-! ### popReply (R55) -/

@[simp] theorem popReply_bl (s : State) : (popReply s).bl = s.bl := rfl
@[simp] theorem popReply_shadow (s : State) : (popReply s).shadow = s.shadow := rfl
@[simp] theorem popReply_cmd (s : State) : (popReply s).cmd = s.cmd := rfl
@[simp] theorem popReply_seq (s : State) : (popReply s).seq = s.seq := rfl
@[simp] theorem popReply_nibHi (s : State) : (popReply s).nibHi = s.nibHi := rfl
@[simp] theorem popReply_nibLo (s : State) : (popReply s).nibLo = s.nibLo := rfl
@[simp] theorem popReply_stat (s : State) : (popReply s).stat = s.stat := rfl
@[simp] theorem popReply_pcount (s : State) : (popReply s).pcount = s.pcount := rfl
@[simp] theorem popReply_rspCode (s : State) : (popReply s).rspCode = s.rspCode := rfl
@[simp] theorem popReply_rspData (s : State) : (popReply s).rspData = s.rspData := rfl
@[simp] theorem popReply_cfg (s : State) : (popReply s).cfg = s.cfg := rfl
@[simp] theorem popReply_trace (s : State) : (popReply s).trace = s.trace := rfl
@[simp] theorem popReply_history (s : State) : (popReply s).history = s.history := rfl
@[simp] theorem popReply_mem (s : State) : (popReply s).mem = s.mem := rfl
@[simp] theorem popReply_host (s : State) : (popReply s).host = s.host := rfl
@[simp] theorem popReply_rstIn (s : State) : (popReply s).rstIn = s.rstIn := rfl
@[simp] theorem popReply_replies (s : State) : (popReply s).replies = s.replies.tail := rfl
@[simp] theorem popReply_busCount (s : State) : (popReply s).busCount = s.busCount + 1 := rfl

/-! ### accept (R37) -/

@[simp] theorem accept_bl (w : CmdWord) (r : Option Nat) (s : State) : (accept w r s).bl = s.bl := rfl
@[simp] theorem accept_shadow (w : CmdWord) (r : Option Nat) (s : State) : (accept w r s).shadow = s.shadow := rfl
@[simp] theorem accept_cmd (w : CmdWord) (r : Option Nat) (s : State) : (accept w r s).cmd = w := rfl
@[simp] theorem accept_seq (w : CmdWord) (r : Option Nat) (s : State) : (accept w r s).seq = .busy := rfl
@[simp] theorem accept_nibHi (w : CmdWord) (r : Option Nat) (s : State) : (accept w r s).nibHi = s.nibHi := rfl
@[simp] theorem accept_nibLo (w : CmdWord) (r : Option Nat) (s : State) : (accept w r s).nibLo = s.nibLo := rfl
@[simp] theorem accept_stat (w : CmdWord) (r : Option Nat) (s : State) : (accept w r s).stat = s.stat := rfl
@[simp] theorem accept_pcount (w : CmdWord) (r : Option Nat) (s : State) : (accept w r s).pcount = s.pcount := rfl
@[simp] theorem accept_rspCode (w : CmdWord) (r : Option Nat) (s : State) : (accept w r s).rspCode = s.rspCode := rfl
@[simp] theorem accept_rspData (w : CmdWord) (r : Option Nat) (s : State) : (accept w r s).rspData = s.rspData := rfl
@[simp] theorem accept_cfg (w : CmdWord) (r : Option Nat) (s : State) : (accept w r s).cfg = s.cfg := rfl
@[simp] theorem accept_trace (w : CmdWord) (r : Option Nat) (s : State) : (accept w r s).trace = [] := rfl
@[simp] theorem accept_history (w : CmdWord) (r : Option Nat) (s : State) : (accept w r s).history = s.history := rfl
@[simp] theorem accept_mem (w : CmdWord) (r : Option Nat) (s : State) : (accept w r s).mem = s.mem := rfl
@[simp] theorem accept_host (w : CmdWord) (r : Option Nat) (s : State) : (accept w r s).host = s.host := rfl
@[simp] theorem accept_rstIn (w : CmdWord) (r : Option Nat) (s : State) : (accept w r s).rstIn = r := rfl
@[simp] theorem accept_replies (w : CmdWord) (r : Option Nat) (s : State) : (accept w r s).replies = s.replies := rfl
@[simp] theorem accept_busCount (w : CmdWord) (r : Option Nat) (s : State) : (accept w r s).busCount = s.busCount := rfl

/-! ### State.resetWith (R41) -/

@[simp] theorem resetWith_bl (c : Config) : (State.resetWith c).bl = c.blInit := rfl
@[simp] theorem resetWith_shadow (c : Config) : (State.resetWith c).shadow = resetShadow c := rfl
@[simp] theorem resetWith_cmd (c : Config) : (State.resetWith c).cmd = 0 := rfl
@[simp] theorem resetWith_seq (c : Config) : (State.resetWith c).seq = .idle := rfl
@[simp] theorem resetWith_nibHi (c : Config) : (State.resetWith c).nibHi = 0 := rfl
@[simp] theorem resetWith_nibLo (c : Config) : (State.resetWith c).nibLo = 0 := rfl
@[simp] theorem resetWith_stat (c : Config) : (State.resetWith c).stat = 0 := rfl
@[simp] theorem resetWith_pcount (c : Config) : (State.resetWith c).pcount = 0 := rfl
@[simp] theorem resetWith_rspCode (c : Config) : (State.resetWith c).rspCode = .ok := rfl
@[simp] theorem resetWith_rspData (c : Config) : (State.resetWith c).rspData = 0 := rfl
@[simp] theorem resetWith_cfg (c : Config) : (State.resetWith c).cfg = c := rfl
@[simp] theorem resetWith_trace (c : Config) : (State.resetWith c).trace = [] := rfl
@[simp] theorem resetWith_history (c : Config) : (State.resetWith c).history = [] := rfl
@[simp] theorem resetWith_mem (c : Config) : (State.resetWith c).mem = [] := rfl
@[simp] theorem resetWith_host (c : Config) : (State.resetWith c).host = [] := rfl
@[simp] theorem resetWith_rstIn (c : Config) : (State.resetWith c).rstIn = none := rfl
@[simp] theorem resetWith_replies (c : Config) : (State.resetWith c).replies = [] := rfl
@[simp] theorem resetWith_busCount (c : Config) : (State.resetWith c).busCount = 0 := rfl

/-! ### resetNow (R41, R149) -/

@[simp] theorem resetNow_bl (c : Config) (s : State) : (resetNow c s).bl = c.blInit := rfl
@[simp] theorem resetNow_shadow (c : Config) (s : State) : (resetNow c s).shadow = resetShadow c := rfl
@[simp] theorem resetNow_cmd (c : Config) (s : State) : (resetNow c s).cmd = 0 := rfl
@[simp] theorem resetNow_seq (c : Config) (s : State) : (resetNow c s).seq = .idle := rfl
@[simp] theorem resetNow_nibHi (c : Config) (s : State) : (resetNow c s).nibHi = 0 := rfl
@[simp] theorem resetNow_nibLo (c : Config) (s : State) : (resetNow c s).nibLo = 0 := rfl
@[simp] theorem resetNow_stat (c : Config) (s : State) : (resetNow c s).stat = 0 := rfl
@[simp] theorem resetNow_pcount (c : Config) (s : State) : (resetNow c s).pcount = 0 := rfl
@[simp] theorem resetNow_rspCode (c : Config) (s : State) : (resetNow c s).rspCode = .ok := rfl
@[simp] theorem resetNow_rspData (c : Config) (s : State) : (resetNow c s).rspData = 0 := rfl
@[simp] theorem resetNow_cfg (c : Config) (s : State) : (resetNow c s).cfg = c := rfl
@[simp] theorem resetNow_trace (c : Config) (s : State) : (resetNow c s).trace = [] := rfl
@[simp] theorem resetNow_history (c : Config) (s : State) : (resetNow c s).history = abandoned s := rfl
@[simp] theorem resetNow_mem (c : Config) (s : State) : (resetNow c s).mem = s.mem := rfl
@[simp] theorem resetNow_host (c : Config) (s : State) : (resetNow c s).host = s.host := rfl
@[simp] theorem resetNow_rstIn (c : Config) (s : State) : (resetNow c s).rstIn = none := rfl
@[simp] theorem resetNow_replies (c : Config) (s : State) : (resetNow c s).replies = s.replies := rfl
@[simp] theorem resetNow_busCount (c : Config) (s : State) : (resetNow c s).busCount = s.busCount := rfl

/-! ### completed -/

@[simp] theorem completed_bl (s : State) (code : RspCode) (data : Byte) (es : List Event) (last : Byte) (n : Nat) : (completed s code data es last n).bl = s.bl := rfl
@[simp] theorem completed_shadow (s : State) (code : RspCode) (data : Byte) (es : List Event) (last : Byte) (n : Nat) : (completed s code data es last n).shadow = last := rfl
@[simp] theorem completed_cmd (s : State) (code : RspCode) (data : Byte) (es : List Event) (last : Byte) (n : Nat) : (completed s code data es last n).cmd = s.cmd := rfl
@[simp] theorem completed_seq (s : State) (code : RspCode) (data : Byte) (es : List Event) (last : Byte) (n : Nat) : (completed s code data es last n).seq = .idle := rfl
@[simp] theorem completed_nibHi (s : State) (code : RspCode) (data : Byte) (es : List Event) (last : Byte) (n : Nat) : (completed s code data es last n).nibHi = s.nibHi := rfl
@[simp] theorem completed_nibLo (s : State) (code : RspCode) (data : Byte) (es : List Event) (last : Byte) (n : Nat) : (completed s code data es last n).nibLo = s.nibLo := rfl
@[simp] theorem completed_stat (s : State) (code : RspCode) (data : Byte) (es : List Event) (last : Byte) (n : Nat) : (completed s code data es last n).stat = s.stat := rfl
@[simp] theorem completed_pcount (s : State) (code : RspCode) (data : Byte) (es : List Event) (last : Byte) (n : Nat) : (completed s code data es last n).pcount = s.pcount := rfl
@[simp] theorem completed_rspCode (s : State) (code : RspCode) (data : Byte) (es : List Event) (last : Byte) (n : Nat) : (completed s code data es last n).rspCode = code := rfl
@[simp] theorem completed_rspData (s : State) (code : RspCode) (data : Byte) (es : List Event) (last : Byte) (n : Nat) : (completed s code data es last n).rspData = data := rfl
@[simp] theorem completed_cfg (s : State) (code : RspCode) (data : Byte) (es : List Event) (last : Byte) (n : Nat) : (completed s code data es last n).cfg = s.cfg := rfl
@[simp] theorem completed_trace (s : State) (code : RspCode) (data : Byte) (es : List Event) (last : Byte) (n : Nat) : (completed s code data es last n).trace = s.trace ++ es := rfl
@[simp] theorem completed_history (s : State) (code : RspCode) (data : Byte) (es : List Event) (last : Byte) (n : Nat) : (completed s code data es last n).history = s.history ++
      [{ word := s.cmd, trace := s.trace ++ es, rsp := some { code := code, data := data } }] := rfl
@[simp] theorem completed_mem (s : State) (code : RspCode) (data : Byte) (es : List Event) (last : Byte) (n : Nat) : (completed s code data es last n).mem = writeLatch s.mem s.cfg.i2cAddr last := rfl
@[simp] theorem completed_host (s : State) (code : RspCode) (data : Byte) (es : List Event) (last : Byte) (n : Nat) : (completed s code data es last n).host = s.host := rfl
@[simp] theorem completed_rstIn (s : State) (code : RspCode) (data : Byte) (es : List Event) (last : Byte) (n : Nat) : (completed s code data es last n).rstIn = s.rstIn := rfl
@[simp] theorem completed_replies (s : State) (code : RspCode) (data : Byte) (es : List Event) (last : Byte) (n : Nat) : (completed s code data es last n).replies = s.replies.drop n := rfl
@[simp] theorem completed_busCount (s : State) (code : RspCode) (data : Byte) (es : List Event) (last : Byte) (n : Nat) : (completed s code data es last n).busCount = s.busCount + n := rfl

/-! ### afterPoll -/

@[simp] theorem afterPoll_bl (s : State) (off k : Nat) : (afterPoll s off k).bl = s.bl := rfl
@[simp] theorem afterPoll_shadow (s : State) (off k : Nat) : (afterPoll s off k).shadow = s.shadow := rfl
@[simp] theorem afterPoll_cmd (s : State) (off k : Nat) : (afterPoll s off k).cmd = s.cmd := rfl
@[simp] theorem afterPoll_seq (s : State) (off k : Nat) : (afterPoll s off k).seq = s.seq := rfl
@[simp] theorem afterPoll_nibHi (s : State) (off k : Nat) : (afterPoll s off k).nibHi = cycleNibble s (off + 8 * (k - 1)) := rfl
@[simp] theorem afterPoll_nibLo (s : State) (off k : Nat) : (afterPoll s off k).nibLo = cycleNibble s (off + 8 * (k - 1) + 4) := rfl
@[simp] theorem afterPoll_stat (s : State) (off k : Nat) : (afterPoll s off k).stat = pollByte s off (k - 1) := rfl
@[simp] theorem afterPoll_pcount (s : State) (off k : Nat) : (afterPoll s off k).pcount = BitVec.ofNat 16 k := rfl
@[simp] theorem afterPoll_rspCode (s : State) (off k : Nat) : (afterPoll s off k).rspCode = s.rspCode := rfl
@[simp] theorem afterPoll_rspData (s : State) (off k : Nat) : (afterPoll s off k).rspData = s.rspData := rfl
@[simp] theorem afterPoll_cfg (s : State) (off k : Nat) : (afterPoll s off k).cfg = s.cfg := rfl
@[simp] theorem afterPoll_trace (s : State) (off k : Nat) : (afterPoll s off k).trace = s.trace := rfl
@[simp] theorem afterPoll_history (s : State) (off k : Nat) : (afterPoll s off k).history = s.history := rfl
@[simp] theorem afterPoll_mem (s : State) (off k : Nat) : (afterPoll s off k).mem = s.mem := rfl
@[simp] theorem afterPoll_host (s : State) (off k : Nat) : (afterPoll s off k).host = s.host := rfl
@[simp] theorem afterPoll_rstIn (s : State) (off k : Nat) : (afterPoll s off k).rstIn = s.rstIn := rfl
@[simp] theorem afterPoll_replies (s : State) (off k : Nat) : (afterPoll s off k).replies = s.replies := rfl
@[simp] theorem afterPoll_busCount (s : State) (off k : Nat) : (afterPoll s off k).busCount = s.busCount := rfl

/-! ### setBl -/

@[simp] theorem setBl_bl (x : Bool) (s : State) : (setBl x s).bl = x := rfl
@[simp] theorem setBl_shadow (x : Bool) (s : State) : (setBl x s).shadow = s.shadow := rfl
@[simp] theorem setBl_cmd (x : Bool) (s : State) : (setBl x s).cmd = s.cmd := rfl
@[simp] theorem setBl_seq (x : Bool) (s : State) : (setBl x s).seq = s.seq := rfl
@[simp] theorem setBl_nibHi (x : Bool) (s : State) : (setBl x s).nibHi = s.nibHi := rfl
@[simp] theorem setBl_nibLo (x : Bool) (s : State) : (setBl x s).nibLo = s.nibLo := rfl
@[simp] theorem setBl_stat (x : Bool) (s : State) : (setBl x s).stat = s.stat := rfl
@[simp] theorem setBl_pcount (x : Bool) (s : State) : (setBl x s).pcount = s.pcount := rfl
@[simp] theorem setBl_rspCode (x : Bool) (s : State) : (setBl x s).rspCode = s.rspCode := rfl
@[simp] theorem setBl_rspData (x : Bool) (s : State) : (setBl x s).rspData = s.rspData := rfl
@[simp] theorem setBl_cfg (x : Bool) (s : State) : (setBl x s).cfg = s.cfg := rfl
@[simp] theorem setBl_trace (x : Bool) (s : State) : (setBl x s).trace = s.trace := rfl
@[simp] theorem setBl_history (x : Bool) (s : State) : (setBl x s).history = s.history := rfl
@[simp] theorem setBl_mem (x : Bool) (s : State) : (setBl x s).mem = s.mem := rfl
@[simp] theorem setBl_host (x : Bool) (s : State) : (setBl x s).host = s.host := rfl
@[simp] theorem setBl_rstIn (x : Bool) (s : State) : (setBl x s).rstIn = s.rstIn := rfl
@[simp] theorem setBl_replies (x : Bool) (s : State) : (setBl x s).replies = s.replies := rfl
@[simp] theorem setBl_busCount (x : Bool) (s : State) : (setBl x s).busCount = s.busCount := rfl

/-! ### setShadow -/

@[simp] theorem setShadow_bl (x : Byte) (s : State) : (setShadow x s).bl = s.bl := rfl
@[simp] theorem setShadow_shadow (x : Byte) (s : State) : (setShadow x s).shadow = x := rfl
@[simp] theorem setShadow_cmd (x : Byte) (s : State) : (setShadow x s).cmd = s.cmd := rfl
@[simp] theorem setShadow_seq (x : Byte) (s : State) : (setShadow x s).seq = s.seq := rfl
@[simp] theorem setShadow_nibHi (x : Byte) (s : State) : (setShadow x s).nibHi = s.nibHi := rfl
@[simp] theorem setShadow_nibLo (x : Byte) (s : State) : (setShadow x s).nibLo = s.nibLo := rfl
@[simp] theorem setShadow_stat (x : Byte) (s : State) : (setShadow x s).stat = s.stat := rfl
@[simp] theorem setShadow_pcount (x : Byte) (s : State) : (setShadow x s).pcount = s.pcount := rfl
@[simp] theorem setShadow_rspCode (x : Byte) (s : State) : (setShadow x s).rspCode = s.rspCode := rfl
@[simp] theorem setShadow_rspData (x : Byte) (s : State) : (setShadow x s).rspData = s.rspData := rfl
@[simp] theorem setShadow_cfg (x : Byte) (s : State) : (setShadow x s).cfg = s.cfg := rfl
@[simp] theorem setShadow_trace (x : Byte) (s : State) : (setShadow x s).trace = s.trace := rfl
@[simp] theorem setShadow_history (x : Byte) (s : State) : (setShadow x s).history = s.history := rfl
@[simp] theorem setShadow_mem (x : Byte) (s : State) : (setShadow x s).mem = s.mem := rfl
@[simp] theorem setShadow_host (x : Byte) (s : State) : (setShadow x s).host = s.host := rfl
@[simp] theorem setShadow_rstIn (x : Byte) (s : State) : (setShadow x s).rstIn = s.rstIn := rfl
@[simp] theorem setShadow_replies (x : Byte) (s : State) : (setShadow x s).replies = s.replies := rfl
@[simp] theorem setShadow_busCount (x : Byte) (s : State) : (setShadow x s).busCount = s.busCount := rfl

/-! ### setNibHi -/

@[simp] theorem setNibHi_bl (x : Nibble) (s : State) : (setNibHi x s).bl = s.bl := rfl
@[simp] theorem setNibHi_shadow (x : Nibble) (s : State) : (setNibHi x s).shadow = s.shadow := rfl
@[simp] theorem setNibHi_cmd (x : Nibble) (s : State) : (setNibHi x s).cmd = s.cmd := rfl
@[simp] theorem setNibHi_seq (x : Nibble) (s : State) : (setNibHi x s).seq = s.seq := rfl
@[simp] theorem setNibHi_nibHi (x : Nibble) (s : State) : (setNibHi x s).nibHi = x := rfl
@[simp] theorem setNibHi_nibLo (x : Nibble) (s : State) : (setNibHi x s).nibLo = s.nibLo := rfl
@[simp] theorem setNibHi_stat (x : Nibble) (s : State) : (setNibHi x s).stat = s.stat := rfl
@[simp] theorem setNibHi_pcount (x : Nibble) (s : State) : (setNibHi x s).pcount = s.pcount := rfl
@[simp] theorem setNibHi_rspCode (x : Nibble) (s : State) : (setNibHi x s).rspCode = s.rspCode := rfl
@[simp] theorem setNibHi_rspData (x : Nibble) (s : State) : (setNibHi x s).rspData = s.rspData := rfl
@[simp] theorem setNibHi_cfg (x : Nibble) (s : State) : (setNibHi x s).cfg = s.cfg := rfl
@[simp] theorem setNibHi_trace (x : Nibble) (s : State) : (setNibHi x s).trace = s.trace := rfl
@[simp] theorem setNibHi_history (x : Nibble) (s : State) : (setNibHi x s).history = s.history := rfl
@[simp] theorem setNibHi_mem (x : Nibble) (s : State) : (setNibHi x s).mem = s.mem := rfl
@[simp] theorem setNibHi_host (x : Nibble) (s : State) : (setNibHi x s).host = s.host := rfl
@[simp] theorem setNibHi_rstIn (x : Nibble) (s : State) : (setNibHi x s).rstIn = s.rstIn := rfl
@[simp] theorem setNibHi_replies (x : Nibble) (s : State) : (setNibHi x s).replies = s.replies := rfl
@[simp] theorem setNibHi_busCount (x : Nibble) (s : State) : (setNibHi x s).busCount = s.busCount := rfl

/-! ### setNibLo -/

@[simp] theorem setNibLo_bl (x : Nibble) (s : State) : (setNibLo x s).bl = s.bl := rfl
@[simp] theorem setNibLo_shadow (x : Nibble) (s : State) : (setNibLo x s).shadow = s.shadow := rfl
@[simp] theorem setNibLo_cmd (x : Nibble) (s : State) : (setNibLo x s).cmd = s.cmd := rfl
@[simp] theorem setNibLo_seq (x : Nibble) (s : State) : (setNibLo x s).seq = s.seq := rfl
@[simp] theorem setNibLo_nibHi (x : Nibble) (s : State) : (setNibLo x s).nibHi = s.nibHi := rfl
@[simp] theorem setNibLo_nibLo (x : Nibble) (s : State) : (setNibLo x s).nibLo = x := rfl
@[simp] theorem setNibLo_stat (x : Nibble) (s : State) : (setNibLo x s).stat = s.stat := rfl
@[simp] theorem setNibLo_pcount (x : Nibble) (s : State) : (setNibLo x s).pcount = s.pcount := rfl
@[simp] theorem setNibLo_rspCode (x : Nibble) (s : State) : (setNibLo x s).rspCode = s.rspCode := rfl
@[simp] theorem setNibLo_rspData (x : Nibble) (s : State) : (setNibLo x s).rspData = s.rspData := rfl
@[simp] theorem setNibLo_cfg (x : Nibble) (s : State) : (setNibLo x s).cfg = s.cfg := rfl
@[simp] theorem setNibLo_trace (x : Nibble) (s : State) : (setNibLo x s).trace = s.trace := rfl
@[simp] theorem setNibLo_history (x : Nibble) (s : State) : (setNibLo x s).history = s.history := rfl
@[simp] theorem setNibLo_mem (x : Nibble) (s : State) : (setNibLo x s).mem = s.mem := rfl
@[simp] theorem setNibLo_host (x : Nibble) (s : State) : (setNibLo x s).host = s.host := rfl
@[simp] theorem setNibLo_rstIn (x : Nibble) (s : State) : (setNibLo x s).rstIn = s.rstIn := rfl
@[simp] theorem setNibLo_replies (x : Nibble) (s : State) : (setNibLo x s).replies = s.replies := rfl
@[simp] theorem setNibLo_busCount (x : Nibble) (s : State) : (setNibLo x s).busCount = s.busCount := rfl

/-! ### setStat -/

@[simp] theorem setStat_bl (x : Byte) (s : State) : (setStat x s).bl = s.bl := rfl
@[simp] theorem setStat_shadow (x : Byte) (s : State) : (setStat x s).shadow = s.shadow := rfl
@[simp] theorem setStat_cmd (x : Byte) (s : State) : (setStat x s).cmd = s.cmd := rfl
@[simp] theorem setStat_seq (x : Byte) (s : State) : (setStat x s).seq = s.seq := rfl
@[simp] theorem setStat_nibHi (x : Byte) (s : State) : (setStat x s).nibHi = s.nibHi := rfl
@[simp] theorem setStat_nibLo (x : Byte) (s : State) : (setStat x s).nibLo = s.nibLo := rfl
@[simp] theorem setStat_stat (x : Byte) (s : State) : (setStat x s).stat = x := rfl
@[simp] theorem setStat_pcount (x : Byte) (s : State) : (setStat x s).pcount = s.pcount := rfl
@[simp] theorem setStat_rspCode (x : Byte) (s : State) : (setStat x s).rspCode = s.rspCode := rfl
@[simp] theorem setStat_rspData (x : Byte) (s : State) : (setStat x s).rspData = s.rspData := rfl
@[simp] theorem setStat_cfg (x : Byte) (s : State) : (setStat x s).cfg = s.cfg := rfl
@[simp] theorem setStat_trace (x : Byte) (s : State) : (setStat x s).trace = s.trace := rfl
@[simp] theorem setStat_history (x : Byte) (s : State) : (setStat x s).history = s.history := rfl
@[simp] theorem setStat_mem (x : Byte) (s : State) : (setStat x s).mem = s.mem := rfl
@[simp] theorem setStat_host (x : Byte) (s : State) : (setStat x s).host = s.host := rfl
@[simp] theorem setStat_rstIn (x : Byte) (s : State) : (setStat x s).rstIn = s.rstIn := rfl
@[simp] theorem setStat_replies (x : Byte) (s : State) : (setStat x s).replies = s.replies := rfl
@[simp] theorem setStat_busCount (x : Byte) (s : State) : (setStat x s).busCount = s.busCount := rfl

/-! ### setPcount -/

@[simp] theorem setPcount_bl (x : BitVec 16) (s : State) : (setPcount x s).bl = s.bl := rfl
@[simp] theorem setPcount_shadow (x : BitVec 16) (s : State) : (setPcount x s).shadow = s.shadow := rfl
@[simp] theorem setPcount_cmd (x : BitVec 16) (s : State) : (setPcount x s).cmd = s.cmd := rfl
@[simp] theorem setPcount_seq (x : BitVec 16) (s : State) : (setPcount x s).seq = s.seq := rfl
@[simp] theorem setPcount_nibHi (x : BitVec 16) (s : State) : (setPcount x s).nibHi = s.nibHi := rfl
@[simp] theorem setPcount_nibLo (x : BitVec 16) (s : State) : (setPcount x s).nibLo = s.nibLo := rfl
@[simp] theorem setPcount_stat (x : BitVec 16) (s : State) : (setPcount x s).stat = s.stat := rfl
@[simp] theorem setPcount_pcount (x : BitVec 16) (s : State) : (setPcount x s).pcount = x := rfl
@[simp] theorem setPcount_rspCode (x : BitVec 16) (s : State) : (setPcount x s).rspCode = s.rspCode := rfl
@[simp] theorem setPcount_rspData (x : BitVec 16) (s : State) : (setPcount x s).rspData = s.rspData := rfl
@[simp] theorem setPcount_cfg (x : BitVec 16) (s : State) : (setPcount x s).cfg = s.cfg := rfl
@[simp] theorem setPcount_trace (x : BitVec 16) (s : State) : (setPcount x s).trace = s.trace := rfl
@[simp] theorem setPcount_history (x : BitVec 16) (s : State) : (setPcount x s).history = s.history := rfl
@[simp] theorem setPcount_mem (x : BitVec 16) (s : State) : (setPcount x s).mem = s.mem := rfl
@[simp] theorem setPcount_host (x : BitVec 16) (s : State) : (setPcount x s).host = s.host := rfl
@[simp] theorem setPcount_rstIn (x : BitVec 16) (s : State) : (setPcount x s).rstIn = s.rstIn := rfl
@[simp] theorem setPcount_replies (x : BitVec 16) (s : State) : (setPcount x s).replies = s.replies := rfl
@[simp] theorem setPcount_busCount (x : BitVec 16) (s : State) : (setPcount x s).busCount = s.busCount := rfl

/-! ### latchIf (R39) -/

@[simp] theorem latchIf_bl (b : Bool) (v : Byte) (s : State) : (latchIf b v s).bl = s.bl := by
  cases b <;> rfl
@[simp] theorem latchIf_shadow (b : Bool) (v : Byte) (s : State) : (latchIf b v s).shadow = s.shadow := by
  cases b <;> rfl
@[simp] theorem latchIf_cmd (b : Bool) (v : Byte) (s : State) : (latchIf b v s).cmd = s.cmd := by
  cases b <;> rfl
@[simp] theorem latchIf_seq (b : Bool) (v : Byte) (s : State) : (latchIf b v s).seq = s.seq := by
  cases b <;> rfl
@[simp] theorem latchIf_nibHi (b : Bool) (v : Byte) (s : State) : (latchIf b v s).nibHi = s.nibHi := by
  cases b <;> rfl
@[simp] theorem latchIf_nibLo (b : Bool) (v : Byte) (s : State) : (latchIf b v s).nibLo = s.nibLo := by
  cases b <;> rfl
@[simp] theorem latchIf_stat (b : Bool) (v : Byte) (s : State) : (latchIf b v s).stat = s.stat := by
  cases b <;> rfl
@[simp] theorem latchIf_pcount (b : Bool) (v : Byte) (s : State) : (latchIf b v s).pcount = s.pcount := by
  cases b <;> rfl
@[simp] theorem latchIf_rspCode (b : Bool) (v : Byte) (s : State) : (latchIf b v s).rspCode = s.rspCode := by
  cases b <;> rfl
@[simp] theorem latchIf_rspData (b : Bool) (v : Byte) (s : State) : (latchIf b v s).rspData = s.rspData := by
  cases b <;> rfl
@[simp] theorem latchIf_cfg (b : Bool) (v : Byte) (s : State) : (latchIf b v s).cfg = s.cfg := by
  cases b <;> rfl
@[simp] theorem latchIf_trace (b : Bool) (v : Byte) (s : State) : (latchIf b v s).trace = s.trace := by
  cases b <;> rfl
@[simp] theorem latchIf_history (b : Bool) (v : Byte) (s : State) : (latchIf b v s).history = s.history := by
  cases b <;> rfl
theorem latchIf_mem (b : Bool) (v : Byte) (s : State) :
    (latchIf b v s).mem = if b then writeLatch s.mem s.cfg.i2cAddr v else s.mem := by
  cases b <;> rfl
@[simp] theorem latchIf_host (b : Bool) (v : Byte) (s : State) : (latchIf b v s).host = s.host := by
  cases b <;> rfl
@[simp] theorem latchIf_rstIn (b : Bool) (v : Byte) (s : State) : (latchIf b v s).rstIn = s.rstIn := by
  cases b <;> rfl
@[simp] theorem latchIf_replies (b : Bool) (v : Byte) (s : State) : (latchIf b v s).replies = s.replies := by
  cases b <;> rfl
@[simp] theorem latchIf_busCount (b : Bool) (v : Byte) (s : State) : (latchIf b v s).busCount = s.busCount := by
  cases b <;> rfl

end Sys2Proof.Machine
end

