-- ==== Sys2Proof/Laws/Memory.lean ====
section
/-! SUPPORT. The laws of the expander latch memory: a read after a write, the canonical form kept, and the last of two
writes to one address alone remaining. -/

namespace Sys2Proof.Machine

theorem readLatch_insertCell_same (k : Nat) (v : Byte) (m : Memory) (a : I2cAddr) (h : a.toNat = k) :
    readLatch (insertCell k v m) a = some v := by
  induction m with
  | nil => simp [insertCell, readLatch, h]
  | cons c rest ih =>
    obtain ⟨k', v'⟩ := c
    simp only [insertCell]
    split
    · simp [readLatch, h]
    · split
      · simp [readLatch, h]
      · rename_i hne
        simp [readLatch, ih, show ¬ k' = a.toNat by omega]

theorem readLatch_insertCell_other (k : Nat) (v : Byte) (m : Memory) (a : I2cAddr) (h : a.toNat ≠ k) :
    readLatch (insertCell k v m) a = readLatch m a := by
  induction m with
  | nil => simp [insertCell, readLatch, h.symm]
  | cons c rest ih =>
    obtain ⟨k', v'⟩ := c
    simp only [insertCell]
    split
    · simp [readLatch, h.symm]
    · split
      · rename_i _ heq
        subst heq
        simp [readLatch, h.symm]
      · simp [readLatch, ih]

/-- A read of the latch that was written gives the byte written. -/
@[simp] theorem readLatch_writeLatch_same (m : Memory) (a : I2cAddr) (v : Byte) :
    readLatch (writeLatch m a v) a = some v :=
  readLatch_insertCell_same _ v m a rfl

/-- A write leaves every other latch alone. -/
theorem readLatch_writeLatch_other (m : Memory) (a b : I2cAddr) (v : Byte) (h : b ≠ a) :
    readLatch (writeLatch m a v) b = readLatch m b :=
  readLatch_insertCell_other _ v m b (fun e => h (BitVec.eq_of_toNat_eq e))

theorem insertCell_insertCell (k : Nat) (v v' : Byte) (m : Memory) :
    insertCell k v' (insertCell k v m) = insertCell k v' m := by
  induction m with
  | nil => simp [insertCell]
  | cons c rest ih =>
    obtain ⟨j, w⟩ := c
    simp only [insertCell]
    split
    · simp [insertCell]
    · split
      · simp [insertCell]
      · rename_i h1 h2
        simp [insertCell, h1, h2, ih]

/-- Of two writes to one latch the last remains. -/
@[simp] theorem writeLatch_writeLatch (m : Memory) (a : I2cAddr) (v v' : Byte) :
    writeLatch (writeLatch m a v) a v' = writeLatch m a v' :=
  insertCell_insertCell _ v v' m

theorem mem_insertCell {k : Nat} {v : Byte} {m : Memory} {c : Host.Cell} (h : c ∈ insertCell k v m) :
    c = (k, v) ∨ c ∈ m := by
  induction m with
  | nil => simpa [insertCell] using h
  | cons d rest ih =>
    obtain ⟨j, w⟩ := d
    simp only [insertCell] at h
    split at h
    · simpa using h
    · split at h
      · rcases List.mem_cons.1 h with h | h
        · exact .inl h
        · exact .inr (List.mem_cons_of_mem _ h)
      · rcases List.mem_cons.1 h with h | h
        · exact .inr (by simp [h])
        · rcases ih h with h | h
          · exact .inl h
          · exact .inr (List.mem_cons_of_mem _ h)

theorem insertCell_sorted (k : Nat) (v : Byte) (m : Memory) (h : (m.map Prod.fst).Pairwise (· < ·)) :
    ((insertCell k v m).map Prod.fst).Pairwise (· < ·) := by
  induction m with
  | nil => simp [insertCell]
  | cons c rest ih =>
    obtain ⟨j, w⟩ := c
    have h' : (∀ a ∈ rest, j < a.1) ∧ (rest.map Prod.fst).Pairwise (· < ·) := by
      rw [List.map_cons, List.pairwise_cons] at h
      exact ⟨fun a ha => h.1 a.1 (List.mem_map_of_mem ha), h.2⟩
    simp only [insertCell]
    split
    · rename_i hlt
      rw [List.map_cons, List.pairwise_cons]
      refine ⟨?_, h⟩
      intro b hb
      rw [List.map_cons, List.mem_cons] at hb
      rcases hb with hb | hb
      · simpa [hb] using hlt
      · obtain ⟨d, hd, rfl⟩ := List.mem_map.1 hb
        exact Nat.lt_trans hlt (h'.1 d hd)
    · split
      · rename_i heq
        subst heq
        exact h
      · rename_i h1 h2
        rw [List.map_cons, List.pairwise_cons]
        refine ⟨?_, ih h'.2⟩
        intro b hb
        obtain ⟨d, hd, rfl⟩ := List.mem_map.1 hb
        rcases mem_insertCell hd with rfl | hd
        · exact Nat.lt_of_le_of_ne (Nat.le_of_not_lt h1) (fun e => h2 e.symm)
        · exact h'.1 d hd

/-- The one memory operation keeps the canonical form. -/
theorem memoryWf_writeLatch (m : Memory) (a : I2cAddr) (v : Byte) (h : memoryWf m = true) :
    memoryWf (writeLatch m a v) = true := by
  simp only [memoryWf, Bool.and_eq_true, decide_eq_true_eq, List.all_eq_true] at h ⊢
  refine ⟨insertCell_sorted _ _ _ h.1, fun c hc => ?_⟩
  rcases mem_insertCell hc with rfl | hc
  · exact a.isLt
  · exact h.2 c hc

/-- Reset memory lists nothing, which is canonical. -/
theorem memoryWf_reset : memoryWf State.reset.mem = true := rfl

end Sys2Proof.Machine
end

