-- ==== Sys2Proof/Laws/Operands.lean ====
section
/-! SUPPORT. The laws of the port byte (40_port_serializer.md R92, R93), of the nibble split (30_encoding.md R80) and
of the bits of a byte. -/

namespace Sys2Proof.Machine

@[simp] theorem bitAt_setBitAt_same (v : Byte) (i : Fin 8) (b : Bool) : bitAt (setBitAt v i b) i = b := by
  cases b <;> simp [bitAt, setBitAt]

theorem bitAt_setBitAt_other (v : Byte) (i j : Fin 8) (b : Bool) (h : j ≠ i) :
    bitAt (setBitAt v i b) j = bitAt v j := by
  have h' : j.val ≠ i.val := fun e => h (Fin.ext e)
  cases b <;> simp [bitAt, setBitAt, h']

/-- Two bytes with the same eight bits are equal. -/
theorem byte_ext {v w : Byte} (h : ∀ i : Fin 8, bitAt v i = bitAt w i) : v = w := by
  apply BitVec.eq_of_getLsbD_eq
  intro i hi
  exact h ⟨i, hi⟩

/-- The eight inequalities of an injective map, as simp uses them. -/
theorem injective_ne {pm : PinMap} (h : pm.injective = true) :
    pm.indices.Nodup := by
  simpa [PinMap.injective] using h

/-- R97: setting one bit to a value it has changes nothing. -/
theorem setBitAt_bitAt (v : Byte) (i : Fin 8) : setBitAt v i (bitAt v i) = v := by
  apply byte_ext
  intro j
  by_cases hj : j = i
  · simp [hj]
  · rw [bitAt_setBitAt_other _ _ _ _ hj]

/-- R94: the BL bit of a port byte is the backlight value; it is written last, whatever the map. -/
@[simp] theorem bitAt_encodePins_bl (pm : PinMap) (p : PinState) : bitAt (encodePins pm p) pm.bl = p.bl := by
  simp [encodePins]

/-- R92, R93: the E bit of a port byte. -/
theorem bitAt_encodePins_e (pm : PinMap) (p : PinState) (h : pm.injective = true) :
    bitAt (encodePins pm p) pm.e = p.e := by
  have hn := injective_ne h
  simp [PinMap.indices] at hn
  simp [encodePins, bitAt_setBitAt_other, hn]

/-- R92, R93: the RS bit of a port byte. -/
theorem bitAt_encodePins_rs (pm : PinMap) (p : PinState) (h : pm.injective = true) :
    bitAt (encodePins pm p) pm.rs = p.rs := by
  have hn := injective_ne h
  simp [PinMap.indices] at hn
  simp [encodePins, bitAt_setBitAt_other, hn]

/-- R92, R93: the RW bit of a port byte. -/
theorem bitAt_encodePins_rw (pm : PinMap) (p : PinState) (h : pm.injective = true) :
    bitAt (encodePins pm p) pm.rw = p.rw := by
  have hn := injective_ne h
  simp [PinMap.indices] at hn
  simp [encodePins, bitAt_setBitAt_other, hn]

/-- R79, R92: the data nibble of a port byte. -/
theorem dataNibble_encodePins (pm : PinMap) (p : PinState) (h : pm.injective = true) :
    dataNibble pm (encodePins pm p) = p.d := by
  have hn := injective_ne h
  simp [PinMap.indices] at hn
  have h4 : bitAt (encodePins pm p) pm.d4 = p.d.getLsbD 0 := by simp [encodePins, bitAt_setBitAt_other, hn]
  have h5 : bitAt (encodePins pm p) pm.d5 = p.d.getLsbD 1 := by simp [encodePins, bitAt_setBitAt_other, hn]
  have h6 : bitAt (encodePins pm p) pm.d6 = p.d.getLsbD 2 := by simp [encodePins, bitAt_setBitAt_other, hn]
  have h7 : bitAt (encodePins pm p) pm.d7 = p.d.getLsbD 3 := by simp [encodePins, bitAt_setBitAt_other, hn]
  simp only [dataNibble, h4, h5, h6, h7]
  generalize p.d = d
  clear h4 h5 h6 h7
  revert d
  decide

end Sys2Proof.Machine
end

