-- ==== Sys2Proof/Laws/Ops.lean ====
section
/-! SUPPORT. What each shared operation answers when every bus operation of it answers `Ok` and no reset comes: the
exact state (00_scope.md R14, R17; 41_nibble_engine.md R100, R103; 42_instruction_encoder.md R110; 43_sync_and_read.md
R120, R121, R125). -/

namespace Sys2Proof.Machine

/-- The state after `n` bus operations that answered `Ok`, with the events `es`, the last write being `last`. -/
def advance (s : State) (es : List Event) (last : Byte) (n : Nat) : State :=
  { s with
    shadow := last
    mem := writeLatch s.mem s.cfg.i2cAddr last
    trace := s.trace ++ es
    replies := s.replies.drop n
    busCount := s.busCount + n }

/-- The state after events that are no bus writes: `n` bus reads that answered `Ok`, and waits. -/
def logged (s : State) (es : List Event) (n : Nat) : State :=
  { s with
    trace := s.trace ++ es
    replies := s.replies.drop n
    busCount := s.busCount + n }

@[simp] theorem andThen_run {α β : Type} (a : α) (s : State) (k : α → State → Flow β) :
    andThen (.run a s) k = k a s := rfl

@[simp] theorem andThen_ended {α β : Type} (s : State) (k : α → State → Flow β) :
    andThen (.ended s) k = .ended s := rfl

theorem tick_none (s : State) (h : s.rstIn = none) : tick s = .run () s := by
  simp [tick, h]

/-! ### The oracle -/

theorem replyAt_of_drop (s t : State) (n k : Nat) (hr : t.replies = s.replies.drop n)
    (hc : t.busCount = s.busCount + n) : replyAt t k = replyAt s (n + k) := by
  simp [replyAt, hr, hc, List.getElem?_drop, Nat.add_assoc]

@[simp] theorem replyAt_advance (s : State) (es : List Event) (last : Byte) (n k : Nat) :
    replyAt (advance s es last n) k = replyAt s (n + k) :=
  replyAt_of_drop _ _ _ _ rfl rfl

@[simp] theorem replyAt_logged (s : State) (es : List Event) (n k : Nat) :
    replyAt (logged s es n) k = replyAt s (n + k) :=
  replyAt_of_drop _ _ _ _ rfl rfl

theorem opsOk_mono {s : State} {n m : Nat} (h : opsOk s n) (hm : m ≤ n) : opsOk s m :=
  fun k hk => h k (Nat.lt_of_lt_of_le hk hm)

theorem opsOk_of_shift {s t : State} {n m : Nat} (h : opsOk s (n + m))
    (hr : ∀ k, replyAt t k = replyAt s (n + k)) : opsOk t m := by
  intro k hk
  rw [hr]
  exact h _ (by omega)

theorem opsOk_advance {s : State} {es : List Event} {last : Byte} {n m : Nat} (h : opsOk s (n + m)) :
    opsOk (advance s es last n) m :=
  opsOk_of_shift h (replyAt_advance s es last n)

theorem reply_ok {s : State} {k : Nat} (h : isOk (replyAt s k) = true) : replyAt s k = .ok (readAt s k) := by
  unfold readAt
  cases hr : replyAt s k with
  | ok data => rfl
  | err l => rw [hr] at h; exact absurd h (by simp [isOk])
  | never l => rw [hr] at h; exact absurd h (by simp [isOk])

@[simp] theorem readAt_advance (s : State) (es : List Event) (last : Byte) (n k : Nat) :
    readAt (advance s es last n) k = readAt s (n + k) := by
  simp [readAt]

/-! ### Composition of advances -/

@[simp] theorem advance_advance (s : State) (es es' : List Event) (l l' : Byte) (n n' : Nat) :
    advance (advance s es l n) es' l' n' = advance s (es ++ es') l' (n + n') := by
  simp [advance, List.drop_drop, Nat.add_assoc]

@[simp] theorem logged_advance (s : State) (es es' : List Event) (l : Byte) (n n' : Nat) :
    logged (advance s es l n) es' n' = advance s (es ++ es') l (n + n') := by
  simp [advance, logged, List.drop_drop, Nat.add_assoc]

@[simp] theorem advance_logged (s : State) (es es' : List Event) (l : Byte) (n n' : Nat) :
    advance (logged s es n) es' l n' = advance s (es ++ es') l (n + n') := by
  simp [advance, logged, List.drop_drop, Nat.add_assoc]

@[simp] theorem logged_logged (s : State) (es es' : List Event) (n n' : Nat) :
    logged (logged s es n) es' n' = logged s (es ++ es') (n + n') := by
  simp [logged, List.drop_drop, Nat.add_assoc]

@[simp] theorem advance_rstIn (s : State) (es : List Event) (l : Byte) (n : Nat) :
    (advance s es l n).rstIn = s.rstIn := rfl
@[simp] theorem advance_cfg (s : State) (es : List Event) (l : Byte) (n : Nat) :
    (advance s es l n).cfg = s.cfg := rfl
@[simp] theorem advance_bl (s : State) (es : List Event) (l : Byte) (n : Nat) :
    (advance s es l n).bl = s.bl := rfl
@[simp] theorem advance_shadow (s : State) (es : List Event) (l : Byte) (n : Nat) :
    (advance s es l n).shadow = l := rfl
@[simp] theorem advance_cmd (s : State) (es : List Event) (l : Byte) (n : Nat) :
    (advance s es l n).cmd = s.cmd := rfl
@[simp] theorem advance_seq (s : State) (es : List Event) (l : Byte) (n : Nat) :
    (advance s es l n).seq = s.seq := rfl
@[simp] theorem advance_nibHi (s : State) (es : List Event) (l : Byte) (n : Nat) :
    (advance s es l n).nibHi = s.nibHi := rfl
@[simp] theorem advance_nibLo (s : State) (es : List Event) (l : Byte) (n : Nat) :
    (advance s es l n).nibLo = s.nibLo := rfl
@[simp] theorem advance_stat (s : State) (es : List Event) (l : Byte) (n : Nat) :
    (advance s es l n).stat = s.stat := rfl
@[simp] theorem advance_pcount (s : State) (es : List Event) (l : Byte) (n : Nat) :
    (advance s es l n).pcount = s.pcount := rfl
@[simp] theorem advance_rspCode (s : State) (es : List Event) (l : Byte) (n : Nat) :
    (advance s es l n).rspCode = s.rspCode := rfl
@[simp] theorem advance_rspData (s : State) (es : List Event) (l : Byte) (n : Nat) :
    (advance s es l n).rspData = s.rspData := rfl
@[simp] theorem advance_history (s : State) (es : List Event) (l : Byte) (n : Nat) :
    (advance s es l n).history = s.history := rfl
@[simp] theorem advance_host (s : State) (es : List Event) (l : Byte) (n : Nat) :
    (advance s es l n).host = s.host := rfl
@[simp] theorem logged_rstIn (s : State) (es : List Event) (n : Nat) :
    (logged s es n).rstIn = s.rstIn := rfl
@[simp] theorem logged_cfg (s : State) (es : List Event) (n : Nat) :
    (logged s es n).cfg = s.cfg := rfl
@[simp] theorem logged_bl (s : State) (es : List Event) (n : Nat) :
    (logged s es n).bl = s.bl := rfl

/-- R132: ending a command after an advance leaves the `completed` state. -/
theorem endCommand_advance (s : State) (es : List Event) (l : Byte) (n : Nat) (code : RspCode) (data : Byte)
    (h : s.rstIn = none) : endCommand code data (advance s es l n) = completed s code data es l n := by
  simp [endCommand, advance, completed, h]

/-! ### The primitives -/

/-- R14: a port write that answers `Ok`. -/
theorem portWrite_ok (v : Byte) (s : State) (hr : s.rstIn = none) (ho : isOk (replyAt s 0) = true) :
    portWrite v s = .run () (advance s [.w v false] v 1) := by
  unfold portWrite
  rw [tick_none s hr, andThen_run, reply_ok ho]
  simp [latchIf, logEvent, popReply, setShadow, advance]

/-- R14: a port read that answers `Ok`. -/
theorem portRead_ok (s : State) (hr : s.rstIn = none) (ho : isOk (replyAt s 0) = true) :
    portRead s = .run (readAt s 0) (logged s [.r (readAt s 0)] 1) := by
  unfold portRead
  rw [tick_none s hr, andThen_run, reply_ok ho]
  simp [logEvent, popReply, logged]

/-- R17: a wait with no reset. -/
theorem wait_ok (t : Duration) (s : State) (hr : s.rstIn = none) :
    wait t s = .run () (logged s [.d t] 0) := by
  unfold wait
  rw [tick_none s hr, andThen_run]
  simp [logEvent, logged]

/-- R14: a port write that answers `Err`. -/
theorem portWrite_err (v : Byte) (s : State) (b : Bool) (hr : s.rstIn = none) (he : replyAt s 0 = .err b) :
    portWrite v s = .ended (endCommand .busError 0 (latchIf b v (logEvent (.w v true) (popReply (setShadow v s))))) := by
  unfold portWrite
  rw [tick_none s hr, andThen_run, he]
  rfl

/-! ### The cycles -/

@[simp] theorem port_advance (d : Nibble) (rs rw e : Bool) (s : State) (es : List Event) (l : Byte) (n : Nat) :
    port d rs rw e (advance s es l n) = port d rs rw e s := rfl

/-- R94: `port` in the terms of a configuration and a backlight value. -/
theorem port_eq (d : Nibble) (rs rw e : Bool) (s : State) : port d rs rw e s = portByte s.cfg s.bl d rs rw e := rfl

/-- R100: a nibble transaction whose three writes answer `Ok`. -/
theorem txNibble_ok (d : Nibble) (rs : Bool) (s : State) (hr : s.rstIn = none) (ho : opsOk s 3) :
    txNibble d rs s =
      .run () (advance s (txTrace s.cfg s.bl d rs) (portByte s.cfg s.bl d rs false false) 3) := by
  have h0 := ho 0 (by omega)
  have h1 := ho 1 (by omega)
  have h2 := ho 2 (by omega)
  simp [txNibble, portWrite_ok, wait_ok, hr, h0, h1, h2, txTrace, port_eq]

/-- R103: a receive cycle whose four bus operations answer `Ok`. -/
theorem rxNibble_ok (rs : Bool) (s : State) (hr : s.rstIn = none) (ho : opsOk s 4) :
    rxNibble rs s =
      .run (cycleNibble s 0)
        (advance s (rxTrace s.cfg s.bl rs (cycleRead s 0)) (portByte s.cfg s.bl 0xF rs true false) 4) := by
  have h0 := ho 0 (by omega)
  have h1 := ho 1 (by omega)
  have h2 := ho 2 (by omega)
  have h3 := ho 3 (by omega)
  cases hp : s.cfg.samplePoint <;>
    simp [rxNibble, sampleAndFall, hp, portWrite_ok, portRead_ok, wait_ok, hr, h0, h1, h2, h3, cycleNibble, cycleRead,
      sampleIndex, rxTrace, port_eq]

/-- R110: a byte transaction whose six writes answer `Ok`. -/
theorem txByte_ok (b : Byte) (rs : Bool) (s : State) (hr : s.rstIn = none) (ho : opsOk s 6) :
    txByte b rs s =
      .run () (advance s (txByteTrace s.cfg s.bl b rs) (portByte s.cfg s.bl (lowNibble b) rs false false) 6) := by
  have h1 : opsOk s 3 := opsOk_mono ho (by omega)
  have h2 : ∀ es l, opsOk (advance s es l 3) 3 := fun es l => opsOk_advance (n := 3) (m := 3) ho
  simp [txByte, txNibble_ok, hr, h1, h2, txByteTrace]

/-! ### The reads, at an offset: `s` is the state the whole command started from -/

@[simp] theorem cycleRead_advance (s : State) (es : List Event) (l : Byte) (n off : Nat) :
    cycleRead (advance s es l n) off = cycleRead s (n + off) := by
  simp [cycleRead, Nat.add_assoc]

@[simp] theorem cycleNibble_advance (s : State) (es : List Event) (l : Byte) (n off : Nat) :
    cycleNibble (advance s es l n) off = cycleNibble s (n + off) := by
  simp [cycleNibble]

@[simp] theorem byteReadAt_advance (s : State) (es : List Event) (l : Byte) (n off : Nat) :
    byteReadAt (advance s es l n) off = byteReadAt s (n + off) := by
  simp [byteReadAt, Nat.add_assoc]

@[simp] theorem byteReadTrace_advance (s : State) (es : List Event) (l : Byte) (n : Nat) (b : Bool) (off : Nat) :
    byteReadTrace (advance s es l n) b off = byteReadTrace s b (n + off) := by
  simp [byteReadTrace, Nat.add_assoc]

@[simp] theorem pollByte_advance (s : State) (es : List Event) (l : Byte) (n off j : Nat) :
    pollByte (advance s es l n) off j = pollByte s (n + off) j := by
  simp [pollByte, Nat.add_assoc]

/-! ### The read registers do not touch the bus; a write to one after an advance is the advance after the write -/

@[simp] theorem setNibHi_advance (x : Nibble) (s : State) (es : List Event) (l : Byte) (n : Nat) :
    setNibHi x (advance s es l n) = advance (setNibHi x s) es l n := rfl
@[simp] theorem replyAt_setNibHi (x : Nibble) (s : State) (k : Nat) : replyAt (setNibHi x s) k = replyAt s k := rfl
@[simp] theorem cycleRead_setNibHi (x : Nibble) (s : State) (k : Nat) : cycleRead (setNibHi x s) k = cycleRead s k := rfl
@[simp] theorem cycleNibble_setNibHi (x : Nibble) (s : State) (k : Nat) : cycleNibble (setNibHi x s) k = cycleNibble s k := rfl
@[simp] theorem byteReadAt_setNibHi (x : Nibble) (s : State) (k : Nat) : byteReadAt (setNibHi x s) k = byteReadAt s k := rfl
@[simp] theorem byteReadTrace_setNibHi (x : Nibble) (s : State) (b : Bool) (k : Nat) :
    byteReadTrace (setNibHi x s) b k = byteReadTrace s b k := rfl
@[simp] theorem opsOk_setNibHi (x : Nibble) (s : State) (n : Nat) : opsOk (setNibHi x s) n = opsOk s n := rfl
@[simp] theorem setNibLo_advance (x : Nibble) (s : State) (es : List Event) (l : Byte) (n : Nat) :
    setNibLo x (advance s es l n) = advance (setNibLo x s) es l n := rfl
@[simp] theorem replyAt_setNibLo (x : Nibble) (s : State) (k : Nat) : replyAt (setNibLo x s) k = replyAt s k := rfl
@[simp] theorem cycleRead_setNibLo (x : Nibble) (s : State) (k : Nat) : cycleRead (setNibLo x s) k = cycleRead s k := rfl
@[simp] theorem cycleNibble_setNibLo (x : Nibble) (s : State) (k : Nat) : cycleNibble (setNibLo x s) k = cycleNibble s k := rfl
@[simp] theorem byteReadAt_setNibLo (x : Nibble) (s : State) (k : Nat) : byteReadAt (setNibLo x s) k = byteReadAt s k := rfl
@[simp] theorem byteReadTrace_setNibLo (x : Nibble) (s : State) (b : Bool) (k : Nat) :
    byteReadTrace (setNibLo x s) b k = byteReadTrace s b k := rfl
@[simp] theorem opsOk_setNibLo (x : Nibble) (s : State) (n : Nat) : opsOk (setNibLo x s) n = opsOk s n := rfl
@[simp] theorem setStat_advance (x : Byte) (s : State) (es : List Event) (l : Byte) (n : Nat) :
    setStat x (advance s es l n) = advance (setStat x s) es l n := rfl
@[simp] theorem replyAt_setStat (x : Byte) (s : State) (k : Nat) : replyAt (setStat x s) k = replyAt s k := rfl
@[simp] theorem cycleRead_setStat (x : Byte) (s : State) (k : Nat) : cycleRead (setStat x s) k = cycleRead s k := rfl
@[simp] theorem cycleNibble_setStat (x : Byte) (s : State) (k : Nat) : cycleNibble (setStat x s) k = cycleNibble s k := rfl
@[simp] theorem byteReadAt_setStat (x : Byte) (s : State) (k : Nat) : byteReadAt (setStat x s) k = byteReadAt s k := rfl
@[simp] theorem byteReadTrace_setStat (x : Byte) (s : State) (b : Bool) (k : Nat) :
    byteReadTrace (setStat x s) b k = byteReadTrace s b k := rfl
@[simp] theorem opsOk_setStat (x : Byte) (s : State) (n : Nat) : opsOk (setStat x s) n = opsOk s n := rfl
@[simp] theorem setPcount_advance (x : BitVec 16) (s : State) (es : List Event) (l : Byte) (n : Nat) :
    setPcount x (advance s es l n) = advance (setPcount x s) es l n := rfl
@[simp] theorem replyAt_setPcount (x : BitVec 16) (s : State) (k : Nat) : replyAt (setPcount x s) k = replyAt s k := rfl
@[simp] theorem cycleRead_setPcount (x : BitVec 16) (s : State) (k : Nat) : cycleRead (setPcount x s) k = cycleRead s k := rfl
@[simp] theorem cycleNibble_setPcount (x : BitVec 16) (s : State) (k : Nat) : cycleNibble (setPcount x s) k = cycleNibble s k := rfl
@[simp] theorem byteReadAt_setPcount (x : BitVec 16) (s : State) (k : Nat) : byteReadAt (setPcount x s) k = byteReadAt s k := rfl
@[simp] theorem byteReadTrace_setPcount (x : BitVec 16) (s : State) (b : Bool) (k : Nat) :
    byteReadTrace (setPcount x s) b k = byteReadTrace s b k := rfl
@[simp] theorem opsOk_setPcount (x : BitVec 16) (s : State) (n : Nat) : opsOk (setPcount x s) n = opsOk s n := rfl

@[simp] theorem setNibHi_setNibHi (x y : Nibble) (s : State) : setNibHi x (setNibHi y s) = setNibHi x s := rfl
@[simp] theorem setNibHi_setNibLo (x : Nibble) (y : Nibble) (s : State) :
    setNibHi x (setNibLo y s) = setNibLo y (setNibHi x s) := rfl
@[simp] theorem setNibHi_setStat (x : Nibble) (y : Byte) (s : State) :
    setNibHi x (setStat y s) = setStat y (setNibHi x s) := rfl
@[simp] theorem setNibHi_setPcount (x : Nibble) (y : BitVec 16) (s : State) :
    setNibHi x (setPcount y s) = setPcount y (setNibHi x s) := rfl
@[simp] theorem setNibLo_setNibLo (x y : Nibble) (s : State) : setNibLo x (setNibLo y s) = setNibLo x s := rfl
@[simp] theorem setNibLo_setStat (x : Nibble) (y : Byte) (s : State) :
    setNibLo x (setStat y s) = setStat y (setNibLo x s) := rfl
@[simp] theorem setNibLo_setPcount (x : Nibble) (y : BitVec 16) (s : State) :
    setNibLo x (setPcount y s) = setPcount y (setNibLo x s) := rfl
@[simp] theorem setStat_setStat (x y : Byte) (s : State) : setStat x (setStat y s) = setStat x s := rfl
@[simp] theorem setStat_setPcount (x : Byte) (y : BitVec 16) (s : State) :
    setStat x (setPcount y s) = setPcount y (setStat x s) := rfl
@[simp] theorem setPcount_setPcount (x y : BitVec 16) (s : State) : setPcount x (setPcount y s) = setPcount x s := rfl

/-- R120: a byte read whose eight bus operations answer `Ok`. -/
theorem rxByte_ok (rs : Bool) (s : State) (hr : s.rstIn = none) (ho : opsOk s 8) :
    rxByte rs s =
      .run (byteReadAt s 0)
        (advance (setNibLo (cycleNibble s 4) (setNibHi (cycleNibble s 0) s)) (byteReadTrace s rs 0)
          (portByte s.cfg s.bl 0xF rs true false) 8) := by
  have h1 : opsOk s 4 := opsOk_mono ho (by omega)
  have h2 : ∀ es l, opsOk (advance (setNibHi (cycleNibble s 0) s) es l 4) 4 :=
    fun es l => opsOk_of_shift (n := 4) ho (fun k => replyAt_of_drop s _ 4 k rfl rfl)
  simp [rxByte, rxNibble_ok, hr, h1, h2, byteReadAt, byteReadTrace]

/-- R121: a status read whose eight bus operations answer `Ok`. -/
theorem statusRead_ok (s : State) (hr : s.rstIn = none) (ho : opsOk s 8) :
    statusRead s =
      .run (byteReadAt s 0)
        (advance (setStat (byteReadAt s 0) (setNibLo (cycleNibble s 4) (setNibHi (cycleNibble s 0) s)))
          (byteReadTrace s false 0) (portByte s.cfg s.bl 0xF false true false) 8) := by
  simp [statusRead, rxByte_ok, hr, ho]

/-! ### The poll (43_sync_and_read.md R125, R126) -/

theorem pollTrace_succ (s : State) (off k : Nat) :
    pollTrace s off (k + 2) =
      pollTrace s off (k + 1) ++ (.d s.cfg.tPollGap :: byteReadTrace s false (off + 8 * (k + 1))) := rfl

/-- The trace of a poll from its first status read on. -/
theorem pollTrace_cons (s : State) (off k : Nat) :
    pollTrace s off (k + 2) =
      byteReadTrace s false off ++ (.d s.cfg.tPollGap :: pollTrace s (off + 8) (k + 1)) := by
  induction k with
  | zero => rfl
  | succ k ih =>
    rw [pollTrace_succ, ih, pollTrace_succ s (off + 8)]
    simp [show off + 8 * (k + 1 + 1) = off + 8 + 8 * (k + 1) by omega]

@[simp] theorem pollTrace_advance (s : State) (es : List Event) (l : Byte) (n off k : Nat) :
    pollTrace (advance s es l n) off k = pollTrace s (n + off) k := by
  induction k with
  | zero => rfl
  | succ k ih =>
    cases k with
    | zero => simp [pollTrace]
    | succ k => simp [pollTrace_succ, ih, Nat.add_assoc]

theorem pollByte_shift (s : State) (off j : Nat) : pollByte s (off + 8) j = pollByte s off (j + 1) := by
  simp [pollByte, show off + 8 + 8 * j = off + 8 * (j + 1) by omega]

/-- R120, R121, R125: the read registers after the poll's status read from here. -/
def afterRead (s : State) : State :=
  setPcount (s.pcount + 1) (setStat (byteReadAt s 0) (setNibLo (cycleNibble s 4) (setNibHi (cycleNibble s 0) s)))

@[simp] theorem afterRead_rstIn (s : State) : (afterRead s).rstIn = s.rstIn := rfl
@[simp] theorem afterRead_cfg (s : State) : (afterRead s).cfg = s.cfg := rfl
@[simp] theorem afterRead_bl (s : State) : (afterRead s).bl = s.bl := rfl
@[simp] theorem afterRead_pcount (s : State) : (afterRead s).pcount = s.pcount + 1 := rfl
@[simp] theorem replyAt_afterRead (s : State) (k : Nat) : replyAt (afterRead s) k = replyAt s k := rfl
@[simp] theorem cycleNibble_afterRead (s : State) (k : Nat) : cycleNibble (afterRead s) k = cycleNibble s k := rfl
@[simp] theorem pollByte_afterRead (s : State) (off j : Nat) : pollByte (afterRead s) off j = pollByte s off j := rfl
@[simp] theorem opsOk_afterRead (s : State) (n : Nat) : opsOk (afterRead s) n = opsOk s n := rfl

@[simp] theorem pollTrace_afterRead (s : State) (off k : Nat) : pollTrace (afterRead s) off k = pollTrace s off k := by
  induction k with
  | zero => rfl
  | succ k ih =>
    cases k with
    | zero => rfl
    | succ k => rw [pollTrace_succ, ih, pollTrace_succ]; rfl

/-- R125: one status read of the loop, at its three outcomes. -/
theorem pollLoop_succ (fuel : Nat) (s : State) (hr : s.rstIn = none) (ho : opsOk s 8) :
    pollLoop (fuel + 1) s =
      let u := advance (afterRead s) (byteReadTrace s false 0) (portByte s.cfg s.bl 0xF false true false) 8
      if busyFlag (byteReadAt s 0) then
        if s.pcount + 1 = s.cfg.nPollMax then .ended (raiseError .timeout (byteReadAt s 0) u)
        else pollLoop fuel
          (advance (afterRead s) (byteReadTrace s false 0 ++ [.d s.cfg.tPollGap])
            (portByte s.cfg s.bl 0xF false true false) 8)
      else .run (byteReadAt s 0) u := by
  simp [pollLoop, statusRead_ok, hr, ho, pollBoundReached, wait_ok, afterRead]

/-- The reads of `afterRead`, seen from a state `m` status reads earlier. -/
theorem pollByte_next (s : State) (es : List Event) (l : Byte) (j : Nat) :
    pollByte (advance (afterRead s) es l 8) 0 j = pollByte s 0 (j + 1) := by
  simp [← pollByte_shift]

/-- R125: the loop of a poll that finds BF = 0 at status read number `m` (from 0) from here. -/
theorem pollLoop_idle (m : Nat) : ∀ (fuel : Nat) (s : State), s.rstIn = none → m < fuel → opsOk s (8 * (m + 1)) →
    (∀ j, j < m → busyFlag (pollByte s 0 j) = true) → busyFlag (pollByte s 0 m) = false →
    s.pcount.toNat + m < s.cfg.nPollMax.toNat →
    pollLoop fuel s = .run (pollByte s 0 m)
      (advance
        (setPcount (s.pcount + BitVec.ofNat 16 (m + 1)) (setStat (pollByte s 0 m)
          (setNibLo (cycleNibble s (8 * m + 4)) (setNibHi (cycleNibble s (8 * m)) s))))
        (pollTrace s 0 (m + 1)) (portByte s.cfg s.bl 0xF false true false) (8 * (m + 1))) := by
  induction m with
  | zero =>
    intro fuel s hr hf ho _ hi hp
    obtain ⟨fuel, rfl⟩ : ∃ f, fuel = f + 1 := ⟨fuel - 1, by omega⟩
    have hi' : busyFlag (byteReadAt s 0) = false := by simpa [pollByte] using hi
    rw [pollLoop_succ _ _ hr ho]
    simp [hi', pollByte, pollTrace, afterRead]
  | succ m ih =>
    intro fuel s hr hf ho hb hi hp
    obtain ⟨fuel, rfl⟩ : ∃ f, fuel = f + 1 := ⟨fuel - 1, by omega⟩
    have hb0 : busyFlag (byteReadAt s 0) = true := by simpa [pollByte] using hb 0 (by omega)
    have hN := s.cfg.nPollMax.isLt
    have hadd : (s.pcount + 1).toNat = s.pcount.toNat + 1 := by simp; omega
    have hne : ¬ s.pcount + 1 = s.cfg.nPollMax := by
      intro e
      have := congrArg BitVec.toNat e
      omega
    rw [pollLoop_succ _ _ hr (opsOk_mono ho (by omega))]
    simp only [hb0, if_true, if_neg hne]
    rw [ih fuel _ (by simpa using hr) (by omega)
      (opsOk_advance (n := 8) (by rw [opsOk_afterRead]; exact opsOk_mono ho (by omega)))
      (fun j hj => by rw [pollByte_next]; exact hb (j + 1) (by omega))
      (by rw [pollByte_next]; exact hi)
      (by simp only [advance_pcount, afterRead_pcount, advance_cfg, afterRead_cfg, hadd]; omega)]
    rw [pollByte_next, pollTrace_cons]
    have e1 : 8 + 8 * (m + 1) = 8 * (m + 1 + 1) := by omega
    have e2 : 8 + 8 * m = 8 * (m + 1) := by omega
    have e3 : 8 + (8 * m + 4) = 8 * (m + 1) + 4 := by omega
    have e4 : s.pcount + 1 + BitVec.ofNat 16 (m + 1) = s.pcount + BitVec.ofNat 16 (m + 1 + 1) := by
      apply BitVec.eq_of_toNat_eq
      simp
      omega
    simp only [setNibHi_advance, setNibLo_advance, setStat_advance, setPcount_advance, advance_advance]
    simp only [advance_cfg, advance_bl, afterRead_cfg, afterRead_bl, advance_pcount, afterRead_pcount, e1, e4,
      pollTrace_advance, pollTrace_afterRead, cycleNibble_advance, cycleNibble_afterRead, e2, e3]
    simp [afterRead]

/-- R126: the loop of a poll whose status reads 0 to `m` from here all read BF = 1, the last one reaching the bound. -/
theorem pollLoop_timeout (m : Nat) : ∀ (fuel : Nat) (s : State), s.rstIn = none → m < fuel → opsOk s (8 * (m + 1)) →
    (∀ j, j ≤ m → busyFlag (pollByte s 0 j) = true) →
    s.pcount.toNat + m + 1 = s.cfg.nPollMax.toNat →
    pollLoop fuel s = .ended (raiseError .timeout (pollByte s 0 m)
      (advance
        (setPcount (s.pcount + BitVec.ofNat 16 (m + 1)) (setStat (pollByte s 0 m)
          (setNibLo (cycleNibble s (8 * m + 4)) (setNibHi (cycleNibble s (8 * m)) s))))
        (pollTrace s 0 (m + 1)) (portByte s.cfg s.bl 0xF false true false) (8 * (m + 1)))) := by
  induction m with
  | zero =>
    intro fuel s hr hf ho hb hp
    obtain ⟨fuel, rfl⟩ : ∃ f, fuel = f + 1 := ⟨fuel - 1, by omega⟩
    have hb' : busyFlag (byteReadAt s 0) = true := by simpa [pollByte] using hb 0 (by omega)
    have hN := s.cfg.nPollMax.isLt
    have he : s.pcount + 1 = s.cfg.nPollMax := by
      apply BitVec.eq_of_toNat_eq
      simp
      omega
    rw [pollLoop_succ _ _ hr ho]
    simp only [hb', if_true, if_pos he]
    simp [pollByte, pollTrace, afterRead]
  | succ m ih =>
    intro fuel s hr hf ho hb hp
    obtain ⟨fuel, rfl⟩ : ∃ f, fuel = f + 1 := ⟨fuel - 1, by omega⟩
    have hb0 : busyFlag (byteReadAt s 0) = true := by simpa [pollByte] using hb 0 (by omega)
    have hN := s.cfg.nPollMax.isLt
    have hadd : (s.pcount + 1).toNat = s.pcount.toNat + 1 := by simp; omega
    have hne : ¬ s.pcount + 1 = s.cfg.nPollMax := by
      intro e
      have := congrArg BitVec.toNat e
      omega
    rw [pollLoop_succ _ _ hr (opsOk_mono ho (by omega))]
    simp only [hb0, if_true, if_neg hne]
    rw [ih fuel _ (by simpa using hr) (by omega)
      (opsOk_advance (n := 8) (by rw [opsOk_afterRead]; exact opsOk_mono ho (by omega)))
      (fun j hj => by rw [pollByte_next]; exact hb (j + 1) (by omega))
      (by simp only [advance_pcount, afterRead_pcount, advance_cfg, afterRead_cfg, hadd]; omega)]
    rw [pollByte_next, pollTrace_cons]
    have e1 : 8 + 8 * (m + 1) = 8 * (m + 1 + 1) := by omega
    have e2 : 8 + 8 * m = 8 * (m + 1) := by omega
    have e3 : 8 + (8 * m + 4) = 8 * (m + 1) + 4 := by omega
    have e4 : s.pcount + 1 + BitVec.ofNat 16 (m + 1) = s.pcount + BitVec.ofNat 16 (m + 1 + 1) := by
      apply BitVec.eq_of_toNat_eq
      simp
      omega
    simp only [setNibHi_advance, setNibLo_advance, setStat_advance, setPcount_advance, advance_advance]
    simp only [advance_cfg, advance_bl, afterRead_cfg, afterRead_bl, advance_pcount, afterRead_pcount, e1, e4,
      pollTrace_advance, pollTrace_afterRead, cycleNibble_advance, cycleNibble_afterRead, e2, e3]
    simp [afterRead]

@[simp] theorem pollTrace_setPcount (x : BitVec 16) (s : State) (off k : Nat) :
    pollTrace (setPcount x s) off k = pollTrace s off k := by
  induction k with
  | zero => rfl
  | succ k ih =>
    cases k with
    | zero => rfl
    | succ k => rw [pollTrace_succ, ih, pollTrace_succ]; rfl

@[simp] theorem pollByte_setPcount (x : BitVec 16) (s : State) (off j : Nat) :
    pollByte (setPcount x s) off j = pollByte s off j := rfl

theorem pollFuel_of_pos (c : Config) (h : 0 < c.nPollMax.toNat) : pollFuel c = c.nPollMax.toNat := by
  have h1 := c.nPollMax.isLt
  have h2 : (c.nPollMax - 1).toNat = c.nPollMax.toNat - 1 := by
    rw [BitVec.toNat_sub_of_le (by simp [BitVec.le_def]; omega)]
    simp
  unfold pollFuel
  omega

/-- R125: a poll from here that finds BF = 0 for the first time at status read `k` (from 1). -/
theorem pollBusy_idle (s : State) (k : Nat) (hr : s.rstIn = none) (ho : opsOk s (8 * k)) (hi : pollIdleAt s 0 k) :
    pollBusy s = .run (pollByte s 0 (k - 1))
      (advance (afterPoll s 0 k) (pollTrace s 0 k) (portByte s.cfg s.bl 0xF false true false) (8 * k)) := by
  obtain ⟨h1, h2, h3, h4⟩ := hi
  obtain ⟨m, rfl⟩ : ∃ m, k = m + 1 := ⟨k - 1, by omega⟩
  unfold pollBusy
  rw [pollLoop_idle m _ _ (by simpa using hr) (by rw [pollFuel_of_pos _ (by omega)]; omega) (by simpa using ho)
    (fun j hj => by rw [pollByte_setPcount]; exact h3 j (by omega)) (by simpa using h4) (by simp; omega)]
  simp [afterPoll]

/-- R126: a poll from here whose status reads all find BF = 1. -/
theorem pollBusy_timeout (s : State) (hr : s.rstIn = none) (hn : 0 < s.cfg.nPollMax.toNat)
    (ho : opsOk s (8 * s.cfg.nPollMax.toNat)) (hb : pollAlwaysBusy s 0) :
    pollBusy s = .ended (raiseError .timeout (pollByte s 0 (s.cfg.nPollMax.toNat - 1))
      (advance (afterPoll s 0 s.cfg.nPollMax.toNat) (pollTrace s 0 s.cfg.nPollMax.toNat)
        (portByte s.cfg s.bl 0xF false true false) (8 * s.cfg.nPollMax.toNat))) := by
  obtain ⟨m, hm⟩ : ∃ m, s.cfg.nPollMax.toNat = m + 1 := ⟨s.cfg.nPollMax.toNat - 1, by omega⟩
  unfold pollBusy
  rw [hm] at ho ⊢
  rw [pollLoop_timeout m _ _ (by simpa using hr) (by rw [pollFuel_of_pos _ hn]; omega) (by simpa using ho)
    (fun j hj => by rw [pollByte_setPcount]; exact hb j (by omega)) (by simp; omega)]
  simp [afterPoll]

/-- The premise of `pollBusy_idle`, seen after the bus operations before the poll. -/
theorem pollIdleAt_advance {s : State} {es : List Event} {l : Byte} {n k : Nat} (h : pollIdleAt s n k) :
    pollIdleAt (advance s es l n) 0 k := by
  simpa [pollIdleAt] using h

/-- The premise of `pollBusy_timeout`, seen after the bus operations before the poll. -/
theorem pollAlwaysBusy_advance {s : State} {es : List Event} {l : Byte} {n : Nat} (h : pollAlwaysBusy s n) :
    pollAlwaysBusy (advance s es l n) 0 := by
  simpa [pollAlwaysBusy] using h

theorem afterPoll_advance (s : State) (es : List Event) (l : Byte) (n k : Nat) :
    afterPoll (advance s es l n) 0 k = advance (afterPoll s n k) es l n := by
  simp [afterPoll, Nat.add_assoc]

/-- R16: the OK response after an advance. -/
theorem closeCommand_advance (s : State) (es : List Event) (l : Byte) (n : Nat) (data : Byte) (h : s.rstIn = none) :
    closeCommand (.run data (advance s es l n)) = completed s .ok data es l n :=
  endCommand_advance s es l n .ok data h

/-- R14: a port read that answers `Err`. -/
theorem portRead_err (s : State) (b : Bool) (hr : s.rstIn = none) (he : replyAt s 0 = .err b) :
    portRead s = .ended (endCommand .busError 0 (logEvent .rFail (popReply s))) := by
  unfold portRead
  rw [tick_none s hr, andThen_run, he]
  rfl

end Sys2Proof.Machine
end

