-- ==== Sys2Proof/Laws/Flow.lean ====
section
/-! SUPPORT. What a command can do WHATEVER the bus answers and whenever a reset comes: one relation for the statements
that ran, one for a command that went no further, and each shared operation shown to be in them. Every whole-machine
fact is derived from these, none by unfolding an operation again. -/

namespace Sys2Proof.Machine

theorem lastWritten_append (prev : Byte) (es es' : List Event) :
    lastWritten prev (es ++ es') = lastWritten (lastWritten prev es) es' := by
  induction es generalizing prev with
  | nil => rfl
  | cons e es ih => cases e <;> simp [lastWritten, ih]

/-- What statements of a command do and what they leave alone, from `s` to `t`, with the trace events `es`. -/
structure Did (s t : State) (es : List Event) : Prop where
  trace : t.trace = s.trace ++ es
  cfg : t.cfg = s.cfg
  cmd : t.cmd = s.cmd
  host : t.host = s.host
  bl : t.bl = s.bl
  seq : t.seq = s.seq
  rspCode : t.rspCode = s.rspCode
  rspData : t.rspData = s.rspData
  history : t.history = s.history
  shadow : t.shadow = lastWritten s.shadow es
  held : ∀ v f, Event.w v f ∈ es → bitAt v s.cfg.pinMap.bl = s.bl
  wf : memoryWf s.mem = true → memoryWf t.mem = true
  other : ∀ a, a ≠ s.cfg.i2cAddr → readLatch t.mem a = readLatch s.mem a
  rstNone : s.rstIn = none → t.rstIn = none
  rstSome : ∀ n, s.rstIn = some n → es.length ≤ n

/-- Statements that ran to their end: no failed event, every bus operation counted, the reset as much nearer. -/
structure Ran (s t : State) (es : List Event) : Prop extends Did s t es where
  ok : ∀ e ∈ es, isFailed e = false
  count : t.busCount = s.busCount + (writeCount es + readCount es)
  replies : t.replies = s.replies.drop (writeCount es + readCount es)
  rstLeft : ∀ n, s.rstIn = some n → t.rstIn = some (n - es.length)

theorem Did.refl (s : State) : Did s s [] where
  trace := by simp
  cfg := rfl
  cmd := rfl
  host := rfl
  bl := rfl
  seq := rfl
  rspCode := rfl
  rspData := rfl
  history := rfl
  shadow := rfl
  held := by simp
  wf := id
  other := fun _ _ => rfl
  rstNone := id
  rstSome := by simp

theorem Ran.refl (s : State) : Ran s s [] where
  toDid := Did.refl s
  ok := by simp
  count := rfl
  replies := rfl
  rstLeft := by simp

theorem Ran.did {s t u : State} {es es' : List Event} (h : Ran s t es) (h' : Did t u es') : Did s u (es ++ es') where
  trace := by rw [h'.trace, h.trace, List.append_assoc]
  cfg := h'.cfg.trans h.cfg
  cmd := h'.cmd.trans h.cmd
  host := h'.host.trans h.host
  bl := h'.bl.trans h.bl
  seq := h'.seq.trans h.seq
  rspCode := h'.rspCode.trans h.rspCode
  rspData := h'.rspData.trans h.rspData
  history := h'.history.trans h.history
  shadow := by rw [h'.shadow, h.shadow, lastWritten_append]
  held := by
    intro v f hm
    rcases List.mem_append.1 hm with hm | hm
    · exact h.held v f hm
    · have := h'.held v f hm
      rwa [h.cfg, h.bl] at this
  wf := fun w => h'.wf (h.wf w)
  other := fun a ha => (h'.other a (by rw [h.cfg]; exact ha)).trans (h.other a ha)
  rstNone := fun w => h'.rstNone (h.rstNone w)
  rstSome := by
    intro n hn
    have h1 := h.rstSome n hn
    have h2 := h'.rstSome _ (h.rstLeft n hn)
    rw [List.length_append]
    omega

theorem Ran.trans {s t u : State} {es es' : List Event} (h : Ran s t es) (h' : Ran t u es') : Ran s u (es ++ es') where
  toDid := h.did h'.toDid
  ok := by
    intro e he
    rcases List.mem_append.1 he with he | he
    · exact h.ok e he
    · exact h'.ok e he
  count := by
    rw [h'.count, h.count]
    simp only [writeCount, readCount, List.countP_append]
    omega
  replies := by
    rw [h'.replies, h.replies, List.drop_drop]
    simp only [writeCount, readCount, List.countP_append]
    congr 1
    omega
  rstLeft := by
    intro n hn
    rw [h'.rstLeft _ (h.rstLeft n hn), List.length_append]
    congr 1
    omega

/-- A command that went no further (R139, R150, R164). -/
inductive Ended (s t : State) (es : List Event) : Prop where
  /-- `rst` came before the next statement. -/
  | reset (h : Ran s t es) (hr : t.rstIn = some 0)
  /-- A bus operation never returned; the operations before it are those of `es`, but for a write of its own. -/
  | never (h : Did s t es) (ok : ∀ e ∈ es, isFailed e = false) (n : Nat) (landed : Bool)
      (hn : replyAt s n = .never landed) (count : t.busCount = s.busCount + (n + 1))
  /-- BusError at the last event. -/
  | bus (u : State) (h : Did s u es) (pre : List Event) (e : Event) (he : es = pre ++ [e])
      (ok : ∀ e' ∈ pre, isFailed e' = false) (hf : isFailed e = true)
      (rst : ∀ n, s.rstIn = some n → u.rstIn = some (n - es.length)) (ht : t = endCommand .busError 0 u)
  /-- Timeout with a busy status byte. -/
  | timeout (u : State) (h : Ran s u es) (data : Byte) (hb : busyFlag data = true) (ht : t = endCommand .timeout data u)

/-- A flow from `s` is in the two relations. -/
def Sat {α : Type} (s : State) (f : Flow α) : Prop :=
  match f with
  | .run _ t => ∃ es, Ran s t es
  | .ended t => ∃ es, Ended s t es

theorem replyAt_of_ran {s t : State} {es : List Event} (h : Ran s t es) (k : Nat) :
    replyAt t k = replyAt s (writeCount es + readCount es + k) :=
  replyAt_of_drop s t _ k h.replies h.count

theorem Ran.ended {s t u : State} {es es' : List Event} (h : Ran s t es) (h' : Ended t u es') :
    Ended s u (es ++ es') := by
  cases h' with
  | reset h1 hr => exact .reset (h.trans h1) hr
  | never h1 ok n landed hn count =>
    refine .never (h.did h1) ?_ (writeCount es + readCount es + n) landed ?_ ?_
    · intro e he
      rcases List.mem_append.1 he with he | he
      · exact h.ok e he
      · exact ok e he
    · rw [← replyAt_of_ran h, hn]
    · rw [count, h.count]
      omega
  | bus v h1 pre e he ok hf rst ht =>
    refine .bus v (h.did h1) (es ++ pre) e (by rw [he, List.append_assoc]) ?_ hf ?_ ht
    · intro e' he'
      rcases List.mem_append.1 he' with he' | he'
      · exact h.ok e' he'
      · exact ok e' he'
    · intro n hn
      rw [rst _ (h.rstLeft n hn), List.length_append]
      congr 1
      omega
  | timeout v h1 data hb ht => exact .timeout v (h.trans h1) data hb ht

/-- R58: two statements one after the other. -/
theorem Sat.andThen {α β : Type} {s : State} {f : Flow α} {k : α → State → Flow β} (hf : Sat s f)
    (hk : ∀ a t es, Ran s t es → Sat t (k a t)) : Sat s (andThen f k) := by
  cases f with
  | ended t => exact hf
  | run a t =>
    obtain ⟨es, he⟩ := hf
    have h := hk a t es he
    rw [andThen_run]
    cases hg : k a t with
    | ended u =>
      rw [hg] at h
      obtain ⟨es', he'⟩ := h
      exact ⟨_, he.ended he'⟩
    | run b u =>
      rw [hg] at h
      obtain ⟨es', he'⟩ := h
      exact ⟨_, he.trans he'⟩

/-! ### The primitives -/

/-- One event and no bus operation. -/
theorem ran_event (s : State) (r : Option Nat) (t : Duration)
    (hr : s.rstIn = none ∧ r = none ∨ ∃ n, s.rstIn = some (n + 1) ∧ r = some n) :
    Ran s (logEvent (.d t) { s with rstIn := r }) [.d t] where
  trace := rfl
  cfg := rfl
  cmd := rfl
  host := rfl
  bl := rfl
  seq := rfl
  rspCode := rfl
  rspData := rfl
  history := rfl
  shadow := rfl
  held := by simp
  wf := id
  other := fun _ _ => rfl
  rstNone := by
    rcases hr with ⟨h, rfl⟩ | ⟨n, h, rfl⟩
    · exact fun _ => rfl
    · simp [h]
  rstSome := by
    rcases hr with ⟨h, rfl⟩ | ⟨n, h, rfl⟩
    · simp [h]
    · intro m hm
      rw [h] at hm
      cases hm
      simp
  ok := by simp [isFailed]
  count := rfl
  replies := rfl
  rstLeft := by
    rcases hr with ⟨h, rfl⟩ | ⟨n, h, rfl⟩
    · simp [h]
    · intro m hm
      rw [h] at hm
      cases hm
      rfl

/-- R17: what a wait can do. -/
theorem wait_sat (t : Duration) (s : State) : Sat s (wait t s) := by
  unfold wait tick
  cases hr : s.rstIn with
  | none =>
    have h := ran_event s none t (.inl ⟨hr, rfl⟩)
    have hs : { s with rstIn := none } = s := by cases s; simp_all
    rw [hs] at h
    exact ⟨_, h⟩
  | some n =>
    cases n with
    | zero => exact ⟨[], .reset (Ran.refl s) hr⟩
    | succ n => exact ⟨_, ran_event s (some n) t (.inr ⟨n, hr, rfl⟩)⟩

/-- The part of a port write after its reset test. -/
def writeBody (v : Byte) (s : State) : Flow Unit :=
  match replyAt s 0 with
  | .ok _ => .run () (latchIf true v (logEvent (.w v false) (popReply (setShadow v s))))
  | .err landed => .ended (raiseError .busError 0 (latchIf landed v (logEvent (.w v true) (popReply (setShadow v s)))))
  | .never landed => .ended (latchIf landed v (logEvent (.w v false) (popReply (setShadow v s))))

/-- The part of a port read after its reset test. -/
def readBody (s : State) : Flow Byte :=
  match replyAt s 0 with
  | .ok data => .run data (logEvent (.r data) (popReply s))
  | .err _ => .ended (raiseError .busError 0 (logEvent .rFail (popReply s)))
  | .never _ => .ended (popReply s)

/-- `s` with `rst` one event nearer. -/
def Nearer (s s' : State) : Prop :=
  (s' = s ∧ s.rstIn = none) ∨ ∃ n, s.rstIn = some (n + 1) ∧ s' = { s with rstIn := some n }

theorem portWrite_body (v : Byte) (s : State) :
    (portWrite v s = .ended s ∧ s.rstIn = some 0) ∨ ∃ s', Nearer s s' ∧ portWrite v s = writeBody v s' := by
  unfold portWrite tick
  cases hr : s.rstIn with
  | none => exact .inr ⟨s, .inl ⟨rfl, hr⟩, rfl⟩
  | some n =>
    cases n with
    | zero => exact .inl ⟨rfl, rfl⟩
    | succ n => exact .inr ⟨_, .inr ⟨n, hr, rfl⟩, rfl⟩

theorem portRead_body (s : State) :
    (portRead s = .ended s ∧ s.rstIn = some 0) ∨ ∃ s', Nearer s s' ∧ portRead s = readBody s' := by
  unfold portRead tick
  cases hr : s.rstIn with
  | none => exact .inr ⟨s, .inl ⟨rfl, hr⟩, rfl⟩
  | some n =>
    cases n with
    | zero => exact .inl ⟨rfl, rfl⟩
    | succ n => exact .inr ⟨_, .inr ⟨n, hr, rfl⟩, rfl⟩

/-- What `Nearer` keeps: everything but the reset. -/
theorem Nearer.eq {s s' : State} (h : Nearer s s') : s' = { s with rstIn := s'.rstIn } := by
  rcases h with ⟨rfl, _⟩ | ⟨n, _, rfl⟩ <;> rfl

theorem Nearer.none {s s' : State} (h : Nearer s s') (hn : s.rstIn = none) : s'.rstIn = none := by
  rcases h with ⟨rfl, _⟩ | ⟨n, hr, rfl⟩
  · exact hn
  · rw [hn] at hr
    cases hr

theorem Nearer.some {s s' : State} (h : Nearer s s') (n : Nat) (hn : s.rstIn = some n) :
    1 ≤ n ∧ s'.rstIn = some (n - 1) := by
  rcases h with ⟨rfl, hr⟩ | ⟨m, hr, rfl⟩
  · rw [hn] at hr
    cases hr
  · rw [hn] at hr
    cases hr
    exact ⟨by omega, rfl⟩

theorem Nearer.fields {s s' : State} (h : Nearer s s') :
    s'.bl = s.bl ∧ s'.cmd = s.cmd ∧ s'.seq = s.seq ∧ s'.rspCode = s.rspCode ∧ s'.rspData = s.rspData ∧
      s'.cfg = s.cfg ∧ s'.trace = s.trace ∧ s'.history = s.history ∧ s'.mem = s.mem ∧ s'.host = s.host ∧
      s'.replies = s.replies ∧ s'.busCount = s.busCount ∧ s'.shadow = s.shadow ∧
      ∀ k, replyAt s' k = replyAt s k := by
  rw [h.eq]
  exact ⟨rfl, rfl, rfl, rfl, rfl, rfl, rfl, rfl, rfl, rfl, rfl, rfl, rfl, fun _ => rfl⟩

/-- R14, R39: the write itself, wherever it leaves the latch. -/
theorem did_write (v : Byte) (failed landed : Bool) {s s' : State} (hn : Nearer s s')
    (hv : bitAt v s.cfg.pinMap.bl = s.bl) :
    Did s (latchIf landed v (logEvent (.w v failed) (popReply (setShadow v s')))) [.w v failed] := by
  obtain ⟨h1, h2, h3, h4, h5, h6, h7, h8, h9, h10, h11, h12, h13, h14⟩ := hn.fields
  refine
    { trace := by simp [h7]
      cfg := by simp [h6]
      cmd := by simp [h2]
      host := by simp [h10]
      bl := by simp [h1]
      seq := by simp [h3]
      rspCode := by simp [h4]
      rspData := by simp [h5]
      history := by simp [h8]
      shadow := by simp [lastWritten]
      held := ?_
      wf := ?_
      other := ?_
      rstNone := ?_
      rstSome := ?_ }
  · intro w f hm
    simp at hm
    rw [hm.1]
    exact hv
  · intro w
    rw [latchIf_mem]
    cases landed
    · simpa [h9] using w
    · simpa [h9, h6] using memoryWf_writeLatch _ _ _ w
  · intro a ha
    rw [latchIf_mem]
    cases landed
    · simp [h9]
    · simpa [h9, h6] using readLatch_writeLatch_other _ _ _ _ ha
  · intro h
    simpa using hn.none h
  · intro n h
    exact (hn.some n h).1

/-- R14: what a port write can do, for a byte that carries the backlight flag. -/
theorem portWrite_sat (v : Byte) (s : State) (hv : bitAt v s.cfg.pinMap.bl = s.bl) : Sat s (portWrite v s) := by
  rcases portWrite_body v s with ⟨h, hr⟩ | ⟨s', hn, h⟩
  · rw [h]
    exact ⟨[], .reset (Ran.refl s) hr⟩
  · rw [h]
    obtain ⟨h1, h2, h3, h4, h5, h6, h7, h8, h9, h10, h11, h12, h13, h14⟩ := hn.fields
    unfold writeBody
    cases hrep : replyAt s' 0 with
    | ok data =>
      refine ⟨[.w v false], did_write v false true hn hv, by simp [isFailed], ?_, ?_, ?_⟩
      · simp [h12, writeCount, readCount, isWrite, isRead]
      · simp [h11, writeCount, readCount, isWrite, isRead]
      · intro n h
        simpa using (hn.some n h).2
    | err landed =>
      refine ⟨[.w v true], .bus _ (did_write v true landed hn hv) [] (.w v true) rfl (by simp) rfl ?_ rfl⟩
      intro n h
      simpa using (hn.some n h).2
    | never landed =>
      exact ⟨[.w v false], .never (did_write v false landed hn hv) (by simp [isFailed]) 0 landed
        (by rw [← h14]; exact hrep) (by simp [h12])⟩

/-- R14: what the read itself leaves, `e` being its event. -/
theorem did_read (es : List Event) (e : Event) (he : es = [e]) (hw : isWrite e = false) {s s' : State} (hn : Nearer s s') :
    Did s (logEvent e (popReply s')) es := by
  obtain ⟨h1, h2, h3, h4, h5, h6, h7, h8, h9, h10, h11, h12, h13, h14⟩ := hn.fields
  subst he
  refine
    { trace := by simp [h7]
      cfg := by simp [h6]
      cmd := by simp [h2]
      host := by simp [h10]
      bl := by simp [h1]
      seq := by simp [h3]
      rspCode := by simp [h4]
      rspData := by simp [h5]
      history := by simp [h8]
      shadow := ?_
      held := ?_
      wf := by simp [h9]
      other := by simp [h9]
      rstNone := ?_
      rstSome := ?_ }
  · cases e <;> simp_all [lastWritten, isWrite]
  · intro v f hm
    simp at hm
    rw [← hm] at hw
    cases hw
  · intro h
    simpa using hn.none h
  · intro n h
    exact (hn.some n h).1

/-- R14: what a port read can do. -/
theorem portRead_sat (s : State) : Sat s (portRead s) := by
  rcases portRead_body s with ⟨h, hr⟩ | ⟨s', hn, h⟩
  · rw [h]
    exact ⟨[], .reset (Ran.refl s) hr⟩
  · rw [h]
    obtain ⟨h1, h2, h3, h4, h5, h6, h7, h8, h9, h10, h11, h12, h13, h14⟩ := hn.fields
    unfold readBody
    cases hrep : replyAt s' 0 with
    | ok data =>
      refine ⟨[.r data], did_read _ _ rfl rfl hn, by simp [isFailed], ?_, ?_, ?_⟩
      · simp [h12, writeCount, readCount, isWrite, isRead]
      · simp [h11, writeCount, readCount, isWrite, isRead]
      · intro n h
        simpa using (hn.some n h).2
    | err landed =>
      refine ⟨[.rFail], .bus _ (did_read _ _ rfl rfl hn) [] .rFail rfl (by simp) rfl ?_ rfl⟩
      intro n h
      simpa using (hn.some n h).2
    | never landed =>
      refine ⟨[], .never ?_ (by simp) 0 landed (by rw [← h14]; exact hrep) (by simp [h12])⟩
      refine
        { trace := by simp [h7]
          cfg := by simp [h6]
          cmd := by simp [h2]
          host := by simp [h10]
          bl := by simp [h1]
          seq := by simp [h3]
          rspCode := by simp [h4]
          rspData := by simp [h5]
          history := by simp [h8]
          shadow := by simp [h13, lastWritten]
          held := by simp
          wf := by simp [h9]
          other := by simp [h9]
          rstNone := ?_
          rstSome := by simp }
      intro h
      simpa using hn.none h

/-- A write to a read register is no event. -/
theorem ran_setNibHi (x : Nibble) (s : State) : Ran s (setNibHi x s) [] :=
  { Ran.refl s with }
theorem ran_setNibLo (x : Nibble) (s : State) : Ran s (setNibLo x s) [] :=
  { Ran.refl s with }
theorem ran_setStat (x : Byte) (s : State) : Ran s (setStat x s) [] :=
  { Ran.refl s with }
theorem ran_setPcount (x : BitVec 16) (s : State) : Ran s (setPcount x s) [] :=
  { Ran.refl s with }

/-- A flow from a state one silent statement further. -/
theorem Sat.after {α : Type} {s t : State} {f : Flow α} {es : List Event} (h : Ran s t es) (hf : Sat t f) : Sat s f := by
  cases f with
  | run a u =>
    obtain ⟨es', h'⟩ := hf
    exact ⟨_, h.trans h'⟩
  | ended u =>
    obtain ⟨es', h'⟩ := hf
    exact ⟨_, h.ended h'⟩

/-- R94: a composed port byte carries the backlight flag, whatever the wiring. -/
theorem port_held (d : Nibble) (rs rw e : Bool) (s : State) : bitAt (port d rs rw e s) s.cfg.pinMap.bl = s.bl := by
  simp [port]

theorem portWrite_port_sat (d : Nibble) (rs rw e : Bool) (s : State) : Sat s (portWrite (port d rs rw e s) s) :=
  portWrite_sat _ s (port_held d rs rw e s)

/-! ### The cycles and the reads -/

/-- R100. -/
theorem txNibble_sat (d : Nibble) (rs : Bool) (s : State) : Sat s (txNibble d rs s) :=
  (portWrite_port_sat d rs false false s).andThen fun _ s _ _ =>
  (wait_sat _ s).andThen fun _ s _ _ =>
  (portWrite_port_sat d rs false true s).andThen fun _ s _ _ =>
  (wait_sat _ s).andThen fun _ s _ _ =>
  (portWrite_port_sat d rs false false s).andThen fun _ s _ _ =>
  wait_sat _ s

theorem run_sat {α : Type} (a : α) (s : State) : Sat s (.run a s) := ⟨[], Ran.refl s⟩

theorem sampleAndFall_sat (rs : Bool) (s : State) : Sat s (sampleAndFall rs s) := by
  unfold sampleAndFall
  cases s.cfg.samplePoint with
  | eHigh =>
    exact (portRead_sat s).andThen fun _ s _ _ =>
      (portWrite_port_sat 0xF rs true false s).andThen fun _ s _ _ => run_sat _ s
  | afterPulse => exact (portWrite_port_sat 0xF rs true false s).andThen fun _ s _ _ => portRead_sat s

/-- R103. -/
theorem rxNibble_sat (rs : Bool) (s : State) : Sat s (rxNibble rs s) :=
  (portWrite_port_sat 0xF rs true false s).andThen fun _ s _ _ =>
  (wait_sat _ s).andThen fun _ s _ _ =>
  (portWrite_port_sat 0xF rs true true s).andThen fun _ s _ _ =>
  (wait_sat _ s).andThen fun _ s _ _ =>
  (sampleAndFall_sat rs s).andThen fun _ s _ _ =>
  (wait_sat _ s).andThen fun _ s _ _ =>
  run_sat _ s

/-- R110. -/
theorem txByte_sat (b : Byte) (rs : Bool) (s : State) : Sat s (txByte b rs s) :=
  (txNibble_sat _ rs s).andThen fun _ s _ _ => txNibble_sat _ rs s

/-- R120. -/
theorem rxByte_sat (rs : Bool) (s : State) : Sat s (rxByte rs s) :=
  (rxNibble_sat rs s).andThen fun hi s _ _ =>
  (Sat.after (ran_setNibHi hi s) (rxNibble_sat rs (setNibHi hi s))).andThen fun lo s _ _ =>
  ⟨_, ran_setNibLo lo s⟩

/-- R121. -/
theorem statusRead_sat (s : State) : Sat s (statusRead s) :=
  (rxByte_sat false s).andThen fun b s _ _ => ⟨_, ran_setStat b s⟩

end Sys2Proof.Machine
end

