-- ==== Sys2Proof/Laws/Registers.lean ====
section
/-! SUPPORT. Which read registers (`nib_hi`, `nib_lo`, `stat`, `pcount`) each shared operation leaves alone WHATEVER the
bus answers (41_nibble_engine.md R107; 10_state.md R28, R29, R30), and that `pcount` stays within its bound (R168). -/

namespace Sys2Proof.Machine

/-- A view of the state that no bus operation, wait or response changes. -/
structure Quiet {γ : Type} (view : State → γ) : Prop where
  rst : ∀ s r, view { s with rstIn := r } = view s
  log : ∀ e s, view (logEvent e s) = view s
  pop : ∀ s, view (popReply s) = view s
  shadow : ∀ v s, view (setShadow v s) = view s
  latch : ∀ b v s, view (latchIf b v s) = view s
  finish : ∀ c d s, view (endCommand c d s) = view s

/-- A flow leaves a view as it was in `s`, wherever the command goes no further. -/
def Keeps {α γ : Type} (view : State → γ) (s : State) (f : Flow α) : Prop :=
  match f with
  | .run _ t => view t = view s
  | .ended t => view t = view s

theorem Keeps.andThen {α β γ : Type} {view : State → γ} {s : State} {f : Flow α} {k : α → State → Flow β}
    (hf : Keeps view s f) (hk : ∀ a t, Keeps view t (k a t)) : Keeps view s (andThen f k) := by
  cases f with
  | ended t => exact hf
  | run a t =>
    have h := hk a t
    rw [andThen_run]
    cases hg : k a t with
    | ended u => rw [hg] at h; exact h.trans hf
    | run b u => rw [hg] at h; exact h.trans hf

theorem Keeps.run {α γ : Type} (view : State → γ) (a : α) (s : State) : Keeps view s (.run a s) := rfl

theorem tick_keeps {γ : Type} {view : State → γ} (q : Quiet view) (s : State) : Keeps view s (tick s) := by
  unfold tick
  split
  · exact rfl
  · exact rfl
  · exact q.rst _ _

theorem wait_keeps {γ : Type} {view : State → γ} (q : Quiet view) (t : Duration) (s : State) : Keeps view s (wait t s) :=
  (tick_keeps q s).andThen fun _ s => q.log _ s

theorem portWrite_keeps {γ : Type} {view : State → γ} (q : Quiet view) (v : Byte) (s : State) :
    Keeps view s (portWrite v s) := by
  refine (tick_keeps q s).andThen fun _ s => ?_
  split <;> simp [Keeps, raiseError, q.latch, q.log, q.pop, q.shadow, q.finish]

theorem portRead_keeps {γ : Type} {view : State → γ} (q : Quiet view) (s : State) : Keeps view s (portRead s) := by
  refine (tick_keeps q s).andThen fun _ s => ?_
  split <;> simp [Keeps, raiseError, q.log, q.pop, q.finish]

/-- R107: a nibble transaction retains nothing. -/
theorem txNibble_keeps {γ : Type} {view : State → γ} (q : Quiet view) (d : Nibble) (rs : Bool) (s : State) :
    Keeps view s (txNibble d rs s) :=
  (portWrite_keeps q _ s).andThen fun _ s => (wait_keeps q _ s).andThen fun _ s =>
  (portWrite_keeps q _ s).andThen fun _ s => (wait_keeps q _ s).andThen fun _ s =>
  (portWrite_keeps q _ s).andThen fun _ s => wait_keeps q _ s

theorem txByte_keeps {γ : Type} {view : State → γ} (q : Quiet view) (b : Byte) (rs : Bool) (s : State) :
    Keeps view s (txByte b rs s) :=
  (txNibble_keeps q _ rs s).andThen fun _ s => txNibble_keeps q _ rs s

theorem sampleAndFall_keeps {γ : Type} {view : State → γ} (q : Quiet view) (rs : Bool) (s : State) :
    Keeps view s (sampleAndFall rs s) := by
  unfold sampleAndFall
  split
  · exact (portRead_keeps q s).andThen fun _ s => (portWrite_keeps q _ s).andThen fun _ s => Keeps.run view _ s
  · exact (portWrite_keeps q _ s).andThen fun _ s => portRead_keeps q s

theorem rxNibble_keeps {γ : Type} {view : State → γ} (q : Quiet view) (rs : Bool) (s : State) :
    Keeps view s (rxNibble rs s) :=
  (portWrite_keeps q _ s).andThen fun _ s => (wait_keeps q _ s).andThen fun _ s =>
  (portWrite_keeps q _ s).andThen fun _ s => (wait_keeps q _ s).andThen fun _ s =>
  (sampleAndFall_keeps q rs s).andThen fun _ s => (wait_keeps q _ s).andThen fun _ s => Keeps.run view _ s

/-- R120: a byte read changes `nib_hi` and `nib_lo` alone of the read registers. -/
theorem rxByte_keeps {γ : Type} {view : State → γ} (q : Quiet view) (hh : ∀ x s, view (setNibHi x s) = view s)
    (hl : ∀ x s, view (setNibLo x s) = view s) (rs : Bool) (s : State) : Keeps view s (rxByte rs s) := by
  refine (rxNibble_keeps q rs s).andThen fun hi s => ?_
  refine Keeps.andThen ?_ fun lo s => hl lo s
  have h := rxNibble_keeps q rs (setNibHi hi s)
  unfold Keeps at h ⊢
  split at h <;> exact h.trans (hh hi s)

/-- R121: a status read changes `stat` too. -/
theorem statusRead_keeps {γ : Type} {view : State → γ} (q : Quiet view) (hh : ∀ x s, view (setNibHi x s) = view s)
    (hl : ∀ x s, view (setNibLo x s) = view s) (hs : ∀ x s, view (setStat x s) = view s) (s : State) :
    Keeps view s (statusRead s) :=
  (rxByte_keeps q hh hl false s).andThen fun b s => hs b s

/-- All four read registers at once. -/
def readRegs (s : State) : Nibble × Nibble × Byte × BitVec 16 := (s.nibHi, s.nibLo, s.stat, s.pcount)

/-- The two read registers a byte read leaves alone. -/
def statRegs (s : State) : Byte × BitVec 16 := (s.stat, s.pcount)

theorem endCommand_readRegs (c : RspCode) (d : Byte) (s : State) : readRegs (endCommand c d s) = readRegs s := by
  unfold endCommand
  split <;> rfl

theorem latchIf_readRegs (b : Bool) (v : Byte) (s : State) : readRegs (latchIf b v s) = readRegs s := by
  cases b <;> rfl

theorem quiet_readRegs : Quiet readRegs where
  rst _ _ := rfl
  log _ _ := rfl
  pop _ := rfl
  shadow _ _ := rfl
  latch := latchIf_readRegs
  finish := endCommand_readRegs

theorem quiet_statRegs : Quiet statRegs where
  rst _ _ := rfl
  log _ _ := rfl
  pop _ := rfl
  shadow _ _ := rfl
  latch b v s := congrArg (fun x => x.2.2) (latchIf_readRegs b v s)
  finish c d s := congrArg (fun x => x.2.2) (endCommand_readRegs c d s)

/-- `pcount` and the configuration, which a status read leaves alone. -/
def pollRegs (s : State) : BitVec 16 × Config := (s.pcount, s.cfg)

theorem quiet_pollRegs : Quiet pollRegs where
  rst _ _ := rfl
  log _ _ := rfl
  pop _ := rfl
  shadow _ _ := rfl
  latch b v s := by cases b <;> rfl
  finish c d s := by unfold endCommand; split <;> rfl

theorem statusRead_pollRegs (s : State) : Keeps pollRegs s (statusRead s) :=
  statusRead_keeps quiet_pollRegs (fun _ _ => rfl) (fun _ _ => rfl) (fun _ _ => rfl) s

/-! ### The poll loop, whatever the bus answers -/

/-- How many status reads the loop may still make: the argument `pollLoop` is called with. -/
def readsLeft (s : State) : Nat :=
  (s.cfg.nPollMax - s.pcount - 1).toNat + 1

/-- `readsLeft` goes down by one at a read that does not reach the bound. -/
theorem readsLeft_step (n p : BitVec 16) (h : ¬ p + 1 = n) :
    (n - p - 1).toNat = (n - (p + 1) - 1).toNat + 1 := by
  have h1 : n.toNat < 65536 := n.isLt
  have h2 : p.toNat < 65536 := p.isLt
  have h3 : ¬ (p + 1).toNat = n.toNat := fun e => h (BitVec.eq_of_toNat_eq e)
  have h4 : (1 : BitVec 16).toNat = 1 := rfl
  simp only [BitVec.toNat_sub, BitVec.toNat_add, h4] at *
  omega

/-- R125, R126: what the loop can do; Timeout comes only at the bound, with a busy byte. -/
theorem pollLoop_sat (fuel : Nat) : ∀ s : State, fuel = readsLeft s → Sat s (pollLoop fuel s) := by
  induction fuel with
  | zero =>
    intro s h
    unfold readsLeft at h
    omega
  | succ k ih =>
    intro s h
    have hk := statusRead_pollRegs s
    have hs := statusRead_sat s
    unfold pollLoop
    cases hf : statusRead s with
    | ended t =>
      rw [hf] at hs
      exact hs
    | run b t =>
      rw [hf] at hs hk
      obtain ⟨es, he⟩ := hs
      have hp : t.pcount = s.pcount := congrArg Prod.fst hk
      have hc : t.cfg = s.cfg := congrArg Prod.snd hk
      simp only [andThen_run]
      have hran : Ran s (setPcount (t.pcount + 1) t) es := by
        simpa using he.trans (ran_setPcount (t.pcount + 1) t)
      split
      · rename_i hbusy
        split
        · exact ⟨es, .timeout _ hran b hbusy rfl⟩
        · rename_i hbound
          refine Sat.after hran ?_
          have hne : ¬ s.pcount + 1 = s.cfg.nPollMax := by
            simpa [pollBoundReached, hp, hc] using hbound
          have hw := wait_sat (setPcount (t.pcount + 1) t).cfg.tPollGap (setPcount (t.pcount + 1) t)
          have hwk := wait_keeps quiet_pollRegs (setPcount (t.pcount + 1) t).cfg.tPollGap (setPcount (t.pcount + 1) t)
          cases hg : wait (setPcount (t.pcount + 1) t).cfg.tPollGap (setPcount (t.pcount + 1) t) with
          | ended u =>
            rw [hg] at hw
            exact hw
          | run a u =>
            rw [hg] at hw hwk
            obtain ⟨es', he'⟩ := hw
            refine Sat.after he' (ih u ?_)
            have hup : u.pcount = s.pcount + 1 := by
              have := congrArg Prod.fst hwk
              simpa [pollRegs, hp] using this
            have huc : u.cfg = s.cfg := by
              have := congrArg Prod.snd hwk
              simpa [pollRegs, hc] using this
            unfold readsLeft at h ⊢
            rw [hup, huc]
            have := readsLeft_step _ _ hne
            omega
      · exact ⟨es, hran⟩

/-- R125: what a poll can do. -/
theorem pollBusy_sat (s : State) : Sat s (pollBusy s) := by
  refine Sat.after (ran_setPcount 0 s) (pollLoop_sat _ _ ?_)
  simp [pollFuel, readsLeft]

/-- R30, R168: the loop keeps `pcount` within the bound. -/
theorem pollLoop_bound (fuel : Nat) : ∀ s : State, s.pcount.toNat < s.cfg.nPollMax.toNat →
    match pollLoop fuel s with
    | .run _ t => t.pcount.toNat ≤ s.cfg.nPollMax.toNat
    | .ended t => t.pcount.toNat ≤ s.cfg.nPollMax.toNat := by
  induction fuel with
  | zero =>
    intro s h
    have := congrArg (fun x => x.2.2.2) (endCommand_readRegs .timeout s.stat s)
    simp only [readRegs] at this
    simp only [pollLoop, raiseError]
    rw [this]
    omega
  | succ k ih =>
    intro s h
    have hk := statusRead_pollRegs s
    unfold pollLoop
    cases hf : statusRead s with
    | ended t =>
      rw [hf] at hk
      have hp : t.pcount = s.pcount := congrArg Prod.fst hk
      simp only [andThen_ended]
      rw [hp]
      omega
    | run b t =>
      rw [hf] at hk
      have hp : t.pcount = s.pcount := congrArg Prod.fst hk
      have hc : t.cfg = s.cfg := congrArg Prod.snd hk
      have hN := s.cfg.nPollMax.isLt
      have hadd : (s.pcount + 1).toNat = s.pcount.toNat + 1 := by simp; omega
      simp only [andThen_run]
      by_cases hbusy : busyFlag b = true
      · rw [if_pos hbusy]
        by_cases hbound : pollBoundReached (setPcount (t.pcount + 1) t) = true
        · rw [if_pos hbound]
          have := congrArg (fun x => x.2.2.2) (endCommand_readRegs .timeout b (setPcount (t.pcount + 1) t))
          simp only [readRegs] at this
          simp only [raiseError]
          rw [this]
          simp only [setPcount_pcount, hp, hadd]
          omega
        · rw [if_neg hbound]
          have hne : ¬ s.pcount + 1 = s.cfg.nPollMax := by
            simpa [pollBoundReached, hp, hc] using hbound
          have hne' : ¬ (s.pcount + 1).toNat = s.cfg.nPollMax.toNat := fun e => hne (BitVec.eq_of_toNat_eq e)
          have hwk := wait_keeps quiet_pollRegs (setPcount (t.pcount + 1) t).cfg.tPollGap (setPcount (t.pcount + 1) t)
          cases hg : wait (setPcount (t.pcount + 1) t).cfg.tPollGap (setPcount (t.pcount + 1) t) with
          | ended u =>
            rw [hg] at hwk
            have hup : u.pcount = s.pcount + 1 := by
              have := congrArg Prod.fst hwk
              simpa [pollRegs, hp] using this
            simp only [andThen_ended]
            rw [hup, hadd]
            omega
          | run a u =>
            rw [hg] at hwk
            have hup : u.pcount = s.pcount + 1 := by
              have := congrArg Prod.fst hwk
              simpa [pollRegs, hp] using this
            have huc : u.cfg = s.cfg := by
              have := congrArg Prod.snd hwk
              simpa [pollRegs, hc] using this
            simp only [andThen_run]
            have := ih u (by rw [hup, huc, hadd]; omega)
            rw [huc] at this
            exact this
      · rw [if_neg hbusy]
        simp only [setPcount_pcount, hp, hadd]
        omega

/-- R123: what a sync can do. -/
theorem sync_sat (long : Bool) (s : State) : Sat s (sync long s) := by
  unfold sync
  split
  · exact (wait_sat _ s).andThen fun _ s _ _ => run_sat _ s
  · exact pollBusy_sat s

end Sys2Proof.Machine
end

