-- ==== Sys2Proof/Laws/Exec.lean ====
section
/-! SUPPORT. What a command and a step can do: the inversion lemmas every whole-machine fact is derived from. -/

namespace Sys2Proof.Machine

/-- R132, R139: how a command ends. -/
inductive Finished (s t : State) (es : List Event) : Prop where
  /-- With an error of a bus operation or of a poll, by a reset, or not at all. -/
  | ended (h : Ended s t es)
  /-- With OK. -/
  | ok (u : State) (h : Ran s u es) (data : Byte) (ht : t = endCommand .ok data u)
  /-- With InvalidParameter, before any event (R135). -/
  | invalid (he : es = []) (ht : t = endCommand .invalidParameter 0 s)

theorem closeCommand_sat {s : State} {f : Flow Byte} (h : Sat s f) : ∃ es, Finished s (closeCommand f) es := by
  cases f with
  | run d u =>
    obtain ⟨es, he⟩ := h
    exact ⟨es, .ok u he d rfl⟩
  | ended t =>
    obtain ⟨es, he⟩ := h
    exact ⟨es, .ended he⟩

theorem withReadPath_sat {s : State} {f : Flow Byte} (h : Sat s f) : ∃ es, Finished s (closeCommand (withReadPath s f)) es := by
  unfold withReadPath
  split
  · exact closeCommand_sat h
  · exact ⟨[], .invalid rfl rfl⟩

/-- R97: SETBL writes `bl` first; the state its port write starts from. -/
def started (i : Instr) (s : State) : State :=
  match i with
  | .setbl b => setBl b s
  | .wnib _ _ => s
  | .wcmd _ _ => s
  | .wdata _ => s
  | .rstat => s
  | .rdata => s
  | .poll => s
  | .init => s

/-- R97: the byte SETBL sends carries the new flag. -/
theorem backlightByte_held (b : Bool) (s : State) : bitAt (backlightByte b s) s.cfg.pinMap.bl = b := by
  simp [backlightByte]

/-- Every command answers a next state, and ends in one of the ways `Finished` lists. -/
theorem exec_finished (i : Instr) (s : State) : ∃ t es, exec i s = .next t ∧ Finished (started i s) t es := by
  cases i with
  | wnib rs n =>
    obtain ⟨es, h⟩ := closeCommand_sat ((txNibble_sat n rs s).andThen fun _ s _ _ => run_sat (0 : Byte) s)
    exact ⟨_, es, rfl, h⟩
  | wcmd lw b =>
    obtain ⟨es, h⟩ := closeCommand_sat ((txByte_sat b false s).andThen fun _ s _ _ => sync_sat lw s)
    exact ⟨_, es, rfl, h⟩
  | wdata b =>
    obtain ⟨es, h⟩ := closeCommand_sat ((txByte_sat b true s).andThen fun _ s _ _ => sync_sat false s)
    exact ⟨_, es, rfl, h⟩
  | rstat =>
    obtain ⟨es, h⟩ := withReadPath_sat (statusRead_sat s)
    exact ⟨_, es, rfl, h⟩
  | rdata =>
    obtain ⟨es, h⟩ := withReadPath_sat ((rxByte_sat true s).andThen fun x s _ _ =>
      (sync_sat false s).andThen fun _ s _ _ => run_sat x s)
    exact ⟨_, es, rfl, h⟩
  | poll =>
    obtain ⟨es, h⟩ := withReadPath_sat (pollBusy_sat s)
    exact ⟨_, es, rfl, h⟩
  | setbl b =>
    obtain ⟨es, h⟩ := closeCommand_sat ((portWrite_sat (backlightByte b s) (setBl b s)
      (by simpa using backlightByte_held b s)).andThen fun _ s _ _ => run_sat (0 : Byte) s)
    exact ⟨_, es, rfl, h⟩
  | init =>
    obtain ⟨es, h⟩ := closeCommand_sat ((wait_sat s.cfg.tInit0 s).andThen fun _ s _ _ =>
      (txNibble_sat s.cfg.fs8 false s).andThen fun _ s _ _ => (wait_sat s.cfg.tInit1 s).andThen fun _ s _ _ =>
      (txNibble_sat s.cfg.fs8 false s).andThen fun _ s _ _ => (wait_sat s.cfg.tInit2 s).andThen fun _ s _ _ =>
      (txNibble_sat s.cfg.fs8 false s).andThen fun _ s _ _ => (wait_sat s.cfg.tInit3 s).andThen fun _ s _ _ =>
      (txNibble_sat s.cfg.fs4 false s).andThen fun _ s _ _ => (wait_sat s.cfg.tExecShort s).andThen fun _ s _ _ =>
      run_sat (0 : Byte) s)
    exact ⟨_, es, rfl, h⟩

/-- R86: every word leaves a next state, legal or not. -/
theorem runWord_finished (w : CmdWord) (s : State) :
    ∃ t es b, runWord w s = .next t ∧ Finished (setBl b s) t es := by
  unfold runWord
  have hs : setBl s.bl s = s := rfl
  cases hd : decode w with
  | none => exact ⟨_, [], s.bl, rfl, .invalid rfl rfl⟩
  | some i =>
    obtain ⟨t, es, h, hf⟩ := exec_finished i s
    cases i with
    | setbl b => exact ⟨t, es, b, h, hf⟩
    | _ => exact ⟨t, es, s.bl, h, hf⟩

/-! ### What ending a command changes -/

theorem endCommand_some_zero {s : State} (h : s.rstIn = some 0) (c : RspCode) (d : Byte) : endCommand c d s = s := by
  simp [endCommand, h]

/-- R139: the response is presented unless `rst` has come. -/
theorem endCommand_presented {s : State} (h : s.rstIn ≠ some 0) (c : RspCode) (d : Byte) :
    endCommand c d s =
      { s with
        rspCode := c
        rspData := d
        seq := .idle
        history := s.history ++ [{ word := s.cmd, trace := s.trace, rsp := some { code := c, data := d } }] } := by
  unfold endCommand
  split
  · rename_i h'
    exact absurd h' h
  · rfl

/-- R139: nothing is rolled back. -/
theorem endCommand_keeps (c : RspCode) (d : Byte) (s : State) :
    (endCommand c d s).bl = s.bl ∧ (endCommand c d s).shadow = s.shadow ∧ (endCommand c d s).cmd = s.cmd ∧
    (endCommand c d s).cfg = s.cfg ∧ (endCommand c d s).trace = s.trace ∧ (endCommand c d s).mem = s.mem ∧
    (endCommand c d s).host = s.host ∧ (endCommand c d s).rstIn = s.rstIn ∧
    (endCommand c d s).replies = s.replies ∧ (endCommand c d s).busCount = s.busCount := by
  unfold endCommand
  split <;> exact ⟨rfl, rfl, rfl, rfl, rfl, rfl, rfl, rfl, rfl, rfl⟩

/-! ### What a step can do -/

/-- The inversion of a step that answers a next state. -/
theorem step_cases {s t : State} (h : step s = .next t) :
    (s.host = [] ∧ s.cfg.legal = true ∧ s.seq = .idle ∧ t = s) ∨
    (∃ c rest, s.host = .reset c :: rest ∧ c.legal = true ∧ t = resetNow c { s with host := rest }) ∨
    (∃ w rest, s.host = .issue w :: rest ∧ s.cfg.legal = true ∧ s.seq = .idle ∧
      runWord w (accept w none { s with host := rest }) = .next t) ∨
    (∃ w n c rest u, s.host = .issueReset w n c :: rest ∧ s.cfg.legal = true ∧ s.seq = .idle ∧ c.legal = true ∧
      runWord w (accept w (some n) { s with host := rest }) = .next u ∧ t = resetNow c u) := by
  unfold step at h
  split at h
  · rename_i hh
    unfold whenReady at h
    split at h
    · rename_i hl
      split at h
      · rename_i hq
        cases h
        exact .inl ⟨hh, hl, hq, rfl⟩
      · cases h
    · cases h
  · rename_i w rest hh
    unfold whenReady at h
    split at h
    · rename_i hl
      split at h
      · rename_i hq
        exact .inr (.inr (.inl ⟨w, rest, hh, hl, hq, h⟩))
      · cases h
    · cases h
  · rename_i c rest hh
    unfold doReset at h
    split at h
    · rename_i hl
      cases h
      exact .inr (.inl ⟨c, rest, hh, hl, rfl⟩)
    · cases h
  · rename_i w n c rest hh
    unfold whenReady at h
    split at h
    · rename_i hl
      split at h
      · rename_i hq
        obtain ⟨u, es, b, hu, _⟩ := runWord_finished w (accept w (some n) { s with host := rest })
        rw [hu] at h
        simp only [thenReset, doReset] at h
        split at h
        · rename_i hc
          cases h
          exact .inr (.inr (.inr ⟨w, n, c, rest, u, hh, hl, hq, hc, hu, rfl⟩))
        · cases h
      · cases h
    · cases h

end Sys2Proof.Machine
end

