-- ==== Sys2Proof/Laws/PerInstr.lean ====
section
/-! SUPPORT. A family of statements made per instruction: the word and the fields of every command fit the command's own
row of the opcode table (30_encoding.md R70, R74, R88). -/

namespace Sys2Proof.Laws.RowFit

/-- The word of a command fits its row, and its fields are legal by R70. -/
def Statement (i : Instr) : Prop :=
  rowFits (rowOf i) (encode i) = true ∧ (fields i).legal = true

theorem wnib (rs : Bool) (n : Nibble) : Statement (.wnib rs n) := by
  unfold Statement
  revert rs n
  decide

theorem wcmd (lw : Bool) (b : Byte) : Statement (.wcmd lw b) := by
  unfold Statement
  revert lw b
  decide

theorem wdata (b : Byte) : Statement (.wdata b) := by
  unfold Statement
  revert b
  decide

theorem rstat : Statement .rstat := by
  unfold Statement
  decide

theorem rdata : Statement .rdata := by
  unfold Statement
  decide

theorem poll : Statement .poll := by
  unfold Statement
  decide

theorem setbl (b : Bool) : Statement (.setbl b) := by
  unfold Statement
  revert b
  decide

theorem init : Statement .init := by
  unfold Statement
  decide

end Sys2Proof.Laws.RowFit
end

