-- ==== Sys2Proof/Machine/Assembler.lean ====
section
/-! DEFINITION. The assembler text of 30_encoding.md R87 to R89: one command a line, to a command word. It is no part
of a step; the details R87 leaves open are in log entry 20. -/

namespace Sys2Proof.Machine

/-- R88: "An operand out of its range is an assembly error"; a line that fits no row of R88 or R89 is one too. -/
inductive AsmError where
  /-- The first word is no mnemonic of R88 or R89. -/
  | unknownMnemonic
  /-- The operands are not those the mnemonic takes. -/
  | badOperands
  deriving DecidableEq, Repr

/-- The quote that stands around a character operand. -/
def quoteChar : Char := Char.ofNat 39

/-- R87: `;` starts a comment to the end of the line (a quoted `;` is a character operand: log entry 20). -/
def stripComment : List Char → List Char
  | [] => []
  | c :: rest =>
    if c = ';' then []
    else
      match rest with
      | [] => [c]
      | x :: rest' =>
        if c = quoteChar ∧ rest'.head? = some quoteChar then c :: x :: stripComment rest'
        else c :: stripComment (x :: rest')

/-- White space between the parts of a line. -/
def isBlank (c : Char) : Bool :=
  c == ' ' || c == '\t' || c == '\r'

/-- The text without white space at its two ends. -/
def trimBlanks (cs : List Char) : List Char :=
  ((cs.dropWhile isBlank).reverse.dropWhile isBlank).reverse

/-- The parts of a text between commas, a quoted comma being no separator. -/
def splitCommas : List Char → List (List Char)
  | [] => [[]]
  | c :: rest =>
    if c = ',' then
      match splitCommas rest with
      | p :: ps => if p = [quoteChar] then (c :: p) :: ps else [] :: p :: ps
      | [] => [[]]
    else
      match splitCommas rest with
      | p :: ps => (c :: p) :: ps
      | [] => [[c]]

/-- The value of a digit below `base`. -/
def digitValue (base : Nat) (c : Char) : Option Nat :=
  let v :=
    if '0' ≤ c ∧ c ≤ '9' then some (c.toNat - 48)
    else if 'a' ≤ c ∧ c ≤ 'f' then some (c.toNat - 87)
    else if 'A' ≤ c ∧ c ≤ 'F' then some (c.toNat - 55)
    else none
  match v with
  | some d => if d < base then some d else none
  | none => none

/-- The digits of a number, most significant first. -/
def digitsValue (base : Nat) : List Char → Nat → Option Nat
  | [], acc => some acc
  | c :: rest, acc =>
    match digitValue base c with
    | some d => digitsValue base rest (acc * base + d)
    | none => none

/-- R87: a decimal, hexadecimal (`0x`) or binary (`0b`) number. -/
def parseNumber (cs : List Char) : Option Nat :=
  match cs with
  | [] => none
  | ['0', 'x'] => none
  | ['0', 'b'] => none
  | '0' :: 'x' :: ds => digitsValue 16 ds 0
  | '0' :: 'b' :: ds => digitsValue 2 ds 0
  | ds => digitsValue 10 ds 0

/-- R87, R88: a byte operand, 0..255 or a quoted ASCII character. -/
def parseByte (cs : List Char) : Option Byte :=
  match cs with
  | [q, c, q'] =>
    if q = quoteChar ∧ q' = quoteChar then
      if c.toNat < 128 then some (BitVec.ofNat 8 c.toNat) else none
    else
      match parseNumber cs with
      | some n => if n < 256 then some (BitVec.ofNat 8 n) else none
      | none => none
  | _ =>
    match parseNumber cs with
    | some n => if n < 256 then some (BitVec.ofNat 8 n) else none
    | none => none

/-- R88: a nibble operand, 0..15. -/
def parseNibble (cs : List Char) : Option Nibble :=
  match parseNumber cs with
  | some n => if n < 16 then some (BitVec.ofNat 4 n) else none
  | none => none

/-- R88: a one-bit operand, 0 or 1. -/
def parseBit (cs : List Char) : Option Bool :=
  match parseNumber cs with
  | some 0 => some false
  | some 1 => some true
  | _ => none

/-- R88: the operand of SETBL, `ON` = 1 and `OFF` = 0. -/
def parseOnOff (cs : List Char) : Option Bool :=
  match cs with
  | ['O', 'N'] => some true
  | ['O', 'F', 'F'] => some false
  | _ => parseBit cs

/-- R87: mnemonics are case-insensitive. -/
def upperCase (cs : List Char) : List Char :=
  cs.map fun c => if 'a' ≤ c ∧ c ≤ 'z' then Char.ofNat (c.toNat - 32) else c

/-- R88, R89: the command of a mnemonic and its operands. -/
def asmCommand (m : List Char) (ops : List (List Char)) : Except AsmError Instr :=
  let orBad (o : Option Instr) : Except AsmError Instr :=
    match o with
    | some i => .ok i
    | none => .error .badOperands
  if m = ['W', 'N', 'I', 'B'] then
    match ops with
    | [a, b] => orBad ((parseBit a).bind fun rs => (parseNibble b).map fun n => .wnib rs n)
    | _ => .error .badOperands
  else if m = ['W', 'C', 'M', 'D'] then
    match ops with
    | [a] => orBad ((parseByte a).map fun b => .wcmd false b)
    | [a, ['L']] => orBad ((parseByte a).map fun b => .wcmd true b)
    | _ => .error .badOperands
  else if m = ['W', 'D', 'A', 'T', 'A'] then
    match ops with
    | [a] => orBad ((parseByte a).map .wdata)
    | _ => .error .badOperands
  else if m = ['R', 'S', 'T', 'A', 'T'] then
    if ops = [] then .ok .rstat else .error .badOperands
  else if m = ['R', 'D', 'A', 'T', 'A'] then
    if ops = [] then .ok .rdata else .error .badOperands
  else if m = ['P', 'O', 'L', 'L'] then
    if ops = [] then .ok .poll else .error .badOperands
  else if m = ['S', 'E', 'T', 'B', 'L'] then
    match ops with
    | [a] => orBad ((parseOnOff a).map .setbl)
    | _ => .error .badOperands
  else if m = ['I', 'N', 'I', 'T'] then
    if ops = [] then .ok .init else .error .badOperands
  else if m = ['W', 'C', 'M', 'D', 'L'] then
    match ops with
    | [a] => orBad ((parseByte a).map fun b => expandPseudo (.wcmdl b))
    | _ => .error .badOperands
  else if m = ['B', 'L', 'O', 'N'] then
    if ops = [] then .ok (expandPseudo .blon) else .error .badOperands
  else if m = ['B', 'L', 'O', 'F', 'F'] then
    if ops = [] then .ok (expandPseudo .bloff) else .error .badOperands
  else if m = ['W', 'N', 'I', 'B', 'I'] then
    match ops with
    | [a] => orBad ((parseNibble a).map fun n => expandPseudo (.wnibi n))
    | _ => .error .badOperands
  else .error .unknownMnemonic

/-- R87: one line; a line with nothing but a comment is no command. -/
def asmLine (line : List Char) : Except AsmError (Option Instr) :=
  let text := trimBlanks (stripComment line)
  if text = [] then .ok none
  else
    let word := upperCase (text.takeWhile fun c => !isBlank c)
    let rest := trimBlanks (text.dropWhile fun c => !isBlank c)
    let ops := if rest = [] then [] else (splitCommas rest).map trimBlanks
    match asmCommand word ops with
    | .ok i => .ok (some i)
    | .error e => .error e

/-- R87, R88, R170: a program's command words in issue order; the assembler emits no word for an error. -/
def assemble : List (List Char) → Except AsmError (List CmdWord)
  | [] => .ok []
  | line :: rest =>
    match asmLine line with
    | .error e => .error e
    | .ok none => assemble rest
    | .ok (some i) =>
      match assemble rest with
      | .ok ws => .ok (encode i :: ws)
      | .error e => .error e

end Sys2Proof.Machine
end

