-- ==== Sys2Proof/Tests/Slice0.lean ====
section
/-! SUPPORT. Tests with expected results written out from the spec (30_encoding.md, 95_test_vectors.md), an ill-formed
term for each well-formedness check, and for each obligation with hypotheses a state or an operand that meets them. -/

namespace Sys2Proof.Machine.Tests

/-! ### Well-formedness: each check refuses its ill-formed term (R33, R70, R119) -/

/-- R84: a field value that each row of R70 refuses, and a reserved opcode (R83). -/
theorem test_illegal_fields :
    (fieldsOf 0x1013).legal = false ∧ (fieldsOf 0x1400).legal = false ∧ (fieldsOf 0x1200).legal = false ∧
    (fieldsOf 0x2100).legal = false ∧ (fieldsOf 0x2200).legal = false ∧ (fieldsOf 0x2C41).legal = false ∧
    (fieldsOf 0x3001).legal = false ∧ (fieldsOf 0x3200).legal = false ∧ (fieldsOf 0x3400).legal = false ∧
    (fieldsOf 0x4001).legal = false ∧ (fieldsOf 0x4200).legal = false ∧ (fieldsOf 0x4400).legal = false ∧
    (fieldsOf 0x4800).legal = false ∧ (fieldsOf 0x5001).legal = false ∧ (fieldsOf 0x5400).legal = false ∧
    (fieldsOf 0x5800).legal = false ∧ (fieldsOf 0x6001).legal = false ∧ (fieldsOf 0x6200).legal = false ∧
    (fieldsOf 0x6400).legal = false ∧ (fieldsOf 0x6800).legal = false ∧ (fieldsOf 0x7000).legal = false := by
  decide

/-- R8: two lines on one bit position. -/
theorem test_injective_refused : ({ docMap with e := 7 } : PinMap).injective = false := by decide

/-- R33: `PINMAP` not injective, `N_POLL_MAX` = 0, `T_PW` = 0; R119: `ABSENT` with `POLL`. -/
theorem test_illegal_configurations :
    ({ defaultConfig with pinMap := { docMap with e := 7 } } : Config).legal = false ∧
    ({ defaultConfig with nPollMax := 0 } : Config).legal = false ∧
    ({ defaultConfig with tPw := 0 } : Config).legal = false ∧
    ({ defaultConfig with readPath := .absent, syncMode := .poll } : Config).legal = false := by decide

theorem test_default_legal : defaultConfig.legal = true := by decide

/-! ### Decoding: words written out from 30_encoding.md R70 and R88 -/

theorem test_decode_wnib : decode 0b0001_1_0_0_0_0000_1111 = some (.wnib true 15) := by decide
theorem test_decode_wcmd : decode 0b0010_0_1_0_0_0000_0001 = some (.wcmd true 1) := by decide
theorem test_decode_wdata : decode 0b0010_1_0_0_0_0100_0001 = some (.wdata 0x41) := by decide
theorem test_decode_rstat : decode 0b0011_0_0_0_0_0000_0000 = some .rstat := by decide
theorem test_decode_rdata : decode 0b0011_1_0_0_0_0000_0000 = some .rdata := by decide
theorem test_decode_poll : decode 0b0100_0_0_0_0_0000_0000 = some .poll := by decide
theorem test_decode_setbl : decode 0b0101_0_0_1_0_0000_0000 = some (.setbl true) := by decide
theorem test_decode_init : decode 0b0110_0_0_0_0_0000_0000 = some .init := by decide

/-- The illegal words of 95_test_vectors.md 2.10. -/
theorem test_decode_illegal :
    ([0x0000, 0x7000, 0xF123, 0x1013, 0x1400, 0x1200, 0x2100, 0x2C41, 0x3001, 0x3100, 0x3400, 0x4001, 0x4800, 0x5001,
      0x5100, 0x5800, 0x6001, 0x6800] : List CmdWord).all (fun w => (decode w).isNone) = true := by decide

/-- R83, R84: the two reasons. -/
theorem test_decode_reasons :
    decodeOrReason 0x7000 = .error .reservedOpcode ∧ decodeOrReason 0x1013 = .error .reservedField := by
  exact ⟨rfl, rfl⟩

/-- The opcode table's numbering: a word in 16 bits, and no word that does not fit. -/
theorem test_decodeTableWord : decodeTableWord 16 0x2028 = some (.wcmd false 0x28) ∧ decodeTableWord 16 0x12028 = none := by
  decide

/-! ### The port byte and the nibbles (95_test_vectors.md 1.1, 2.1) -/

theorem test_port_bytes :
    encodePins docMap { d := 0xA, rs := true, rw := false, e := true, bl := true } = 0xDA ∧
    encodePins altMap { d := 0x4, rs := true, rw := false, e := false, bl := true } = 0x49 ∧
    encodePins altMap { d := 0xF, rs := false, rw := true, e := true, bl := true } = 0xFE := by decide

theorem test_read_nibbles : dataNibble docMap 0x25 = 0x5 ∧ dataNibble altMap 0x8F = 0x8 ∧ dataNibble altMap 0x0A = 0 := by
  decide

/-! ### One command (95_test_vectors.md part 2) -/

/-- A state right after reset under `c`, with the bus answers `rs` in place. -/
def start (c : Config) (rs : List BusReply) : State :=
  { State.resetWith c with replies := rs }

/-- `start` with the command `w` on the `cmd` channel. -/
def issued (c : Config) (w : CmdWord) (rs : List BusReply) : State :=
  { start c rs with host := [.issue w] }

/-- A write that answers `Ok`. -/
def wOk : BusReply := .ok 0

/-- The four answers of a receive cycle with `E_HIGH` that reads `r`. -/
def q (r : Byte) : List BusReply := [wOk, wOk, .ok r, wOk]

/-- The test vectors' configuration in `POLL` mode with the bound `n`. -/
def pollConfig (n : BitVec 16) : Config := { defaultConfig with syncMode := .poll, nPollMax := n }

/-- The bytes a trace writes. -/
def written : List Event → List Byte
  | [] => []
  | .w v _ :: es => v :: written es
  | .r _ :: es => written es
  | .rFail :: es => written es
  | .d _ :: es => written es

/-- The outcome is a next state with the property. -/
def nextWith (o : Outcome) (p : State → Bool) : Bool :=
  match o with
  | .next t => p t
  | .fault _ => false
  | .refused _ => false

/-- V1: `WNIB 0, 3`. -/
theorem test_wnib : nextWith (step (issued defaultConfig 0x1003 [wOk, wOk, wOk])) (fun t =>
    t.trace == [.w 0x83 false, .d 0, .w 0xC3 false, .d 1000, .w 0x83 false, .d 1000]
      && t.shadow == 0x83 && t.rspCode == .ok && t.rspData == 0 && t.mem == [(0x27, 0x83)]) = true := by decide +kernel

/-- V6: `WNIB 0, 3` whose write 2 fails: E = 1 is left in `shadow`. -/
theorem test_wnib_fails : nextWith (step (issued defaultConfig 0x1003 [wOk, .err false])) (fun t =>
    t.trace == [.w 0x83 false, .d 0, .w 0xC3 true] && t.shadow == 0xC3 && t.rspCode == .busError && t.rspData == 0
      && t.seq == .idle && t.mem == [(0x27, 0x83)]) = true := by decide +kernel

/-- V10: `WCMD 0x01, L` in `FIXED` mode. -/
theorem test_wcmd_fixed : nextWith (step (issued defaultConfig 0x2401 (List.replicate 6 wOk))) (fun t =>
    written t.trace == [0x80, 0xC0, 0x80, 0x81, 0xC1, 0x81] && t.trace.getLast? == some (.d 2000000)
      && t.shadow == 0x81 && t.rspCode == .ok && t.rspData == 0) = true := by decide +kernel

/-- V14: `WCMD 0x28` in `POLL` mode, busy once. -/
theorem test_wcmd_poll : nextWith
    (step (issued (pollConfig 3) 0x2028 (List.replicate 6 wOk ++ q 0xE8 ++ q 0xE0 ++ q 0xE0 ++ q 0xE1))) (fun t =>
    t.shadow == 0xAF && t.stat == 0x01 && t.nibHi == 0 && t.nibLo == 1 && t.pcount == 2 && t.rspCode == .ok
      && t.rspData == 0x01) = true := by decide +kernel

/-- V20: `WDATA 'A'` in `FIXED` mode. -/
theorem test_wdata_fixed : nextWith (step (issued defaultConfig 0x2841 (List.replicate 6 wOk))) (fun t =>
    written t.trace == [0x94, 0xD4, 0x94, 0x91, 0xD1, 0x91] && t.trace.getLast? == some (.d 50000)
      && t.rspCode == .ok && t.rspData == 0) = true := by decide +kernel

/-- V23: `WDATA 'A'` in `POLL` mode: the poll reads with RS = 0. -/
theorem test_wdata_poll : nextWith
    (step (issued (pollConfig 3) 0x2841 (List.replicate 6 wOk ++ q 0xE0 ++ q 0xE2))) (fun t =>
    (written t.trace).drop 6 == [0xAF, 0xEF, 0xAF, 0xAF, 0xEF, 0xAF] && t.stat == 0x02 && t.pcount == 1
      && t.rspData == 0x02) = true := by decide +kernel

/-- V28: RSTAT at the sample point `AFTER_PULSE`. -/
theorem test_rstat_after_pulse : nextWith
    (step (issued { defaultConfig with samplePoint := .afterPulse } 0x3000
      [wOk, wOk, wOk, .ok 0xA2, wOk, wOk, wOk, .ok 0xA7])) (fun t =>
    t.trace == [.w 0xAF false, .d 0, .w 0xEF false, .d 1000, .w 0xAF false, .r 0xA2, .d 1000,
      .w 0xAF false, .d 0, .w 0xEF false, .d 1000, .w 0xAF false, .r 0xA7, .d 1000]
      && t.stat == 0x27 && t.rspData == 0x27) = true := by decide +kernel

/-- V29: RSTAT whose second read fails: `nib_hi` is received, `stat` stays. -/
theorem test_rstat_fails : nextWith
    (step (issued defaultConfig 0x3000 (q 0xE8 ++ [wOk, wOk, .err false]))) (fun t =>
    t.shadow == 0xEF && t.nibHi == 8 && t.nibLo == 0 && t.stat == 0 && t.rspCode == .busError && t.rspData == 0
      && t.trace.getLast? == some .rFail) = true := by decide +kernel

/-- V33: RDATA in `FIXED` mode. -/
theorem test_rdata_fixed : nextWith (step (issued defaultConfig 0x3800 (q 0xF4 ++ q 0xF8))) (fun t =>
    written t.trace == [0xBF, 0xFF, 0xBF, 0xBF, 0xFF, 0xBF] && t.nibHi == 4 && t.nibLo == 8 && t.stat == 0
      && t.rspCode == .ok && t.rspData == 0x48) = true := by decide +kernel

/-- V35: RDATA whose sync times out: the data byte is lost. -/
theorem test_rdata_timeout : nextWith
    (step (issued (pollConfig 1) 0x3800 (q 0xF4 ++ q 0xF8 ++ q 0xE8 ++ q 0xE3))) (fun t =>
    t.stat == 0x83 && t.pcount == 1 && t.rspCode == .timeout && t.rspData == 0x83) = true := by decide +kernel

/-- V40: POLL that finds idle on the last allowed read. -/
theorem test_poll_idle : nextWith
    (step (issued defaultConfig 0x4000 (q 0xE8 ++ q 0xE0 ++ q 0xE8 ++ q 0xE0 ++ q 0xE0 ++ q 0xE1))) (fun t =>
    t.stat == 0x01 && t.pcount == 3 && t.rspCode == .ok && t.rspData == 0x01) = true := by decide +kernel

/-- V41: POLL that stays busy: Timeout, with no gap after the third read. -/
theorem test_poll_timeout : nextWith
    (step (issued defaultConfig 0x4000 (q 0xE8 ++ q 0xE0 ++ q 0xE8 ++ q 0xE0 ++ q 0xE8 ++ q 0xE7))) (fun t =>
    t.stat == 0x87 && t.pcount == 3 && t.rspCode == .timeout && t.rspData == 0x87 && t.trace.length == 44
      && t.seq == .idle) = true := by decide +kernel

/-- V47: `SETBL 0` after `WDATA 'A'`. -/
theorem test_setbl : nextWith (step { issued defaultConfig 0x5000 [wOk] with shadow := 0x91 }) (fun t =>
    t.trace == [.w 0x11 false] && t.bl == false && t.shadow == 0x11 && t.rspCode == .ok && t.rspData == 0) = true := by decide +kernel

/-- V49: `SETBL 0` whose write fails keeps the new `bl` and the new `shadow`. -/
theorem test_setbl_fails : nextWith (step (issued defaultConfig 0x5000 [.err true])) (fun t =>
    t.trace == [.w 0x00 true] && t.bl == false && t.shadow == 0x00 && t.rspCode == .busError && t.rspData == 0) = true := by decide +kernel

/-- V52: INIT, the walk of 1.5. -/
theorem test_init : nextWith (step (issued defaultConfig 0x6000 (List.replicate 12 wOk))) (fun t =>
    written t.trace == [0x83, 0xC3, 0x83, 0x83, 0xC3, 0x83, 0x83, 0xC3, 0x83, 0x82, 0xC2, 0x82]
      && t.trace.head? == some (.d 50000000) && t.trace.getLast? == some (.d 50000) && t.shadow == 0x82
      && t.rspCode == .ok) = true := by decide +kernel

/-- V54: INIT whose write 5 fails. -/
theorem test_init_fails : nextWith (step (issued defaultConfig 0x6000 (List.replicate 4 wOk ++ [.err false]))) (fun t =>
    t.trace.length == 11 && t.trace.getLast? == some (.w 0xC3 true) && t.shadow == 0xC3 && t.rspCode == .busError) = true := by decide +kernel

/-- 95_test_vectors.md 2.10: an illegal word, and RSTAT without the read path. -/
theorem test_invalid_parameter :
    nextWith (step (issued defaultConfig 0x2C41 [])) (fun t => t.trace == [] && t.rspCode == .invalidParameter
      && t.rspData == 0 && t.shadow == 0x80 && t.seq == .idle) = true ∧
    nextWith (step (issued { defaultConfig with readPath := .absent } 0x3000 [])) (fun t => t.trace == []
      && t.rspCode == .invalidParameter && t.rspData == 0 && t.shadow == 0x80) = true := by decide +kernel

/-- V59: reset during `WCMD 0x28` after its write 2: no response, registers reset, the latch still 0xC2. -/
theorem test_reset_mid_command : nextWith
    (step { start defaultConfig (List.replicate 6 wOk) with host := [.issueReset 0x2028 3 defaultConfig] }) (fun t =>
    t.shadow == 0x80 && t.seq == .idle && t.mem == [(0x27, 0xC2)] && t.trace == []
      && t.history == [{ word := 0x2028, trace := [.w 0x82 false, .d 0, .w 0xC2 false], rsp := none }]) = true := by decide +kernel

/-- `State.withFetchWord`: the very next step runs that instruction, whatever the bus answers. -/
theorem test_fetch_word (s : State) (h : s.cfg.legal = true) : step (s.withFetchWord 16 0x6000) =
    exec .init (accept 0x6000 none { s with seq := .idle }) := by
  simp only [step, State.withFetchWord, whenReady, h]
  rfl

/-! ### Assembler text and facade (30_encoding.md R87 to R91; 95_test_vectors.md 1.3, 1.8, P1, P3) -/

theorem test_asm_words :
    assemble ["SETBL 0 ; backlight off".toList, "wdata 'A'".toList, "POLL".toList, "WCMDL 0x01".toList, "".toList,
      "WNIB 1, 0b1111".toList, "WCMD 40".toList] = .ok [0x5000, 0x2841, 0x4000, 0x2401, 0x180F, 0x2028] := by decide +kernel

theorem test_asm_error : asmLine "WNIB 0, 16".toList = .error .badOperands ∧
    asmLine "NOP".toList = .error .unknownMnemonic := by decide +kernel

theorem test_cursor_position :
    facadeExpand { cols := 20, rows := 4 } ⟨true, false, false, true, false⟩ (.setCursorPos 19 3) =
      some (⟨true, false, false, true, false⟩, [.wcmd false 0xE7]) ∧
    facadeExpand { cols := 20, rows := 4 } ⟨true, false, false, true, false⟩ (.setDdramAddress 0x68) = none := by decide +kernel

/-! ### Witnesses: for each obligation with hypotheses, a state or operands that meet all of them -/

/-- `start` with every bus answer given by `rs` and the moves `host`. -/
def moves (c : Config) (host : List HostMove) (rs : List BusReply) : State :=
  { start c rs with host := host }

/-- The configuration without the read path. -/
def absentConfig : Config := { defaultConfig with readPath := .absent }

/-- A configuration that is not legal (R33). -/
def badConfig : Config := { defaultConfig with nPollMax := 0 }

theorem witness_EncodeOfDecode : decode 0x1003 = some (.wnib false 3) := by decide

theorem witness_OpcodeRowsDisjoint : rowWnib ∈ opRows ∧ rowFits rowWnib 0x1003 = true := by decide

theorem witness_PortByteBijection : docMap.injective = true ∧ altMap.injective = true := by decide

theorem witness_PortByteBits : docMap.injective = true ∧ altMap.injective = true := by decide

theorem witness_ReadNibbleBits : bitAt 0x25 docMap.d4 = bitAt 0x05 docMap.d4 ∧ bitAt 0x25 docMap.d5 = bitAt 0x05 docMap.d5 ∧
    bitAt 0x25 docMap.d6 = bitAt 0x05 docMap.d6 ∧ bitAt 0x25 docMap.d7 = bitAt 0x05 docMap.d7 := by decide

theorem witness_ResetValues : defaultConfig.pinMap = docMap := rfl

/-- Both phases the reset can find. -/
theorem witness_ResetFromAnyState :
    (let s := moves absentConfig [.reset defaultConfig] []
     s.host = [.reset defaultConfig] ∧ s.seq = .idle ∧ defaultConfig.legal = true) ∧
    (let s := { moves absentConfig [.reset defaultConfig] [] with seq := .busy }
     s.host = [.reset defaultConfig] ∧ s.seq = .busy) := by decide +kernel

/-- `rst` before any event, and after the last one. -/
theorem witness_ResetDuringCommand (n : Nat) (h : n = 0 ∨ n = 13) :
    (let s := moves defaultConfig [.issueReset 0x2028 n absentConfig] (List.replicate 6 wOk)
     s.host = [.issueReset 0x2028 n absentConfig] ∧ s.cfg.legal = true ∧ s.seq = .idle ∧ absentConfig.legal = true) := by
  rcases h with rfl | rfl <;> decide +kernel

theorem witness_StepRunsDecoded : (issued defaultConfig 0x1003 []).host = [.issue 0x1003] ∧
    (issued defaultConfig 0x1003 []).cfg.legal = true ∧ (issued defaultConfig 0x1003 []).seq = .idle ∧
    decode 0x1003 = some (.wnib false 3) := by decide +kernel

/-- R83 and R84. -/
theorem witness_IllegalWordAnswered (w : CmdWord) (h : w = 0x7000 ∨ w = 0x1013) :
    (issued defaultConfig w []).host = [.issue w] ∧ (issued defaultConfig w []).cfg.legal = true ∧
    (issued defaultConfig w []).seq = .idle ∧ (fieldsOf w).legal = false := by
  rcases h with rfl | rfl <;> decide +kernel

/-- The two ends of each range of reserved opcodes. -/
theorem witness_ReservedOpcodesIllegal : (fieldsOf 0x0000).op = 0 ∧ 7 ≤ (fieldsOf 0x7000).op.toNat ∧
    7 ≤ (fieldsOf 0xF123).op.toNat := by decide

theorem witness_BusyAcceptsNothing (host : List HostMove) (h : host = [] ∨ host = [.issue 0x1003]) :
    (let s := { moves defaultConfig host [] with seq := .busy }
     s.cfg.legal = true ∧ s.seq = .busy ∧ ∀ c rest, s.host ≠ .reset c :: rest) := by
  rcases h with rfl | rfl <;> exact ⟨by decide, rfl, fun c rest e => by cases e⟩

theorem witness_IdleWaits : State.reset.host = [] ∧ State.reset.cfg.legal = true ∧ State.reset.seq = .idle := by decide

theorem witness_IllegalConfigRefused :
    ((moves badConfig [.issue 0x1003] []).cfg.legal = false ∧
      ∀ c rest, (moves badConfig [.issue 0x1003] []).host ≠ .reset c :: rest) ∧
    ((moves defaultConfig [.reset badConfig] []).host = [.reset badConfig] ∧ badConfig.legal = false) :=
  ⟨⟨by decide, fun c rest e => by cases e⟩, rfl, by decide⟩

theorem witness_CmdUnreadInIdle :
    ((issued defaultConfig 0x1003 []).seq = .idle ∧ (issued defaultConfig 0x1003 []).host ≠ []) ∧
    (State.reset.seq = .idle ∧ State.reset.host = [] ∧ State.reset.cfg.legal = true) := by decide +kernel

theorem witness_InvAfterReset : absentConfig.legal = true ∧ (pollConfig 65535).legal = true := by decide

/-- Each of the four kinds of step that answers a next state. -/
theorem witness_StepKeepsInv (s : State)
    (h : s = moves defaultConfig [] [] ∨ s = moves defaultConfig [.reset absentConfig] [] ∨
      s = moves defaultConfig [.issue 0x5000] [.err true] ∨
      s = moves defaultConfig [.issueReset 0x2028 3 absentConfig] (List.replicate 6 wOk)) :
    inv s = true ∧ nextWith (step s) (fun _ => true) = true := by
  rcases h with rfl | rfl | rfl | rfl <;> decide +kernel

/-- Every way to end: OK, BusError, Timeout, InvalidParameter, and a bus operation that never returns. -/
theorem witness_OneResponsePerCommand :
    (start defaultConfig []).rstIn = none ∧
    nextWith (exec (.setbl false) (start defaultConfig [wOk])) (fun t => t.history.length == 1 && t.rspCode == .ok) = true ∧
    nextWith (exec (.setbl false) (start defaultConfig [.err false]))
      (fun t => t.history.length == 1 && t.rspCode == .busError) = true ∧
    nextWith (exec .poll (start (pollConfig 1) (q 0xE8 ++ q 0xE0)))
      (fun t => t.history.length == 1 && t.rspCode == .timeout) = true ∧
    nextWith (exec .poll (start absentConfig [])) (fun t => t.history.length == 1 && t.rspCode == .invalidParameter) = true ∧
    nextWith (exec (.setbl false) (start defaultConfig [.never true])) (fun t => t.history.length == 0) = true := by
  decide +kernel

/-- A command that answers a next state with a write in its trace: the premise of the statements over all commands. -/
theorem witness_EveryWriteCarriesBacklight :
    nextWith (exec (.setbl false) (start defaultConfig [wOk])) (fun t => t.trace == [.w 0x00 false]) = true ∧
    nextWith (exec (.wnib true 0xF) (start defaultConfig [wOk, wOk, wOk])) (fun t => (written t.trace).length == 3) = true := by
  decide +kernel

theorem witness_ShadowIsLastWritten :
    nextWith (exec (.wnib true 0xF) (start defaultConfig [wOk, .err false])) (fun t => written t.trace == [0x9F, 0xDF]) = true ∧
    nextWith (exec .rstat (start absentConfig [])) (fun t => t.trace == []) = true := by
  decide +kernel

theorem witness_FrameOfEveryCommand :
    nextWith (exec (.setbl false) (start defaultConfig [wOk])) (fun t => !t.bl) = true ∧
    nextWith (exec (.wnib false 3) (start defaultConfig [wOk, wOk, wOk])) (fun t => t.bl) = true ∧
    (0x26 : I2cAddr) ≠ defaultConfig.i2cAddr := by
  decide +kernel

theorem witness_FrameOfReadRegisters :
    defaultConfig.syncMode = .fixed ∧
    nextWith (exec (.wnib false 3) (start defaultConfig (List.replicate 3 wOk))) (fun _ => true) = true ∧
    nextWith (exec (.setbl true) (start defaultConfig [wOk])) (fun _ => true) = true ∧
    nextWith (exec .init (start defaultConfig (List.replicate 12 wOk))) (fun _ => true) = true ∧
    nextWith (exec (.wcmd true 1) (start defaultConfig (List.replicate 6 wOk))) (fun _ => true) = true ∧
    nextWith (exec (.wdata 1) (start defaultConfig (List.replicate 6 wOk))) (fun _ => true) = true ∧
    nextWith (exec .rdata (start defaultConfig (q 0xF4 ++ q 0xF8))) (fun t => t.nibHi == 4) = true ∧
    nextWith (exec .rstat (start defaultConfig (q 0xE8 ++ q 0xE5))) (fun t => t.stat == 0x85) = true := by
  decide +kernel

theorem sameAnswer_self (pm : PinMap) (r : BusReply) : sameAnswer pm r r := by
  cases r <;> exact rfl

/-- Two runs whose read bytes differ in the bits that carry no data line. -/
theorem witness_OtherReadBitsIgnored :
    sameRegisters (start defaultConfig (q 0xE8 ++ q 0xE5)) (start defaultConfig (q 0x08 ++ q 0xF5)) ∧
    (∀ k, sameAnswer docMap (replyAt (start defaultConfig (q 0xE8 ++ q 0xE5)) k)
      (replyAt (start defaultConfig (q 0x08 ++ q 0xF5)) k)) ∧
    nextWith (exec .rstat (start defaultConfig (q 0xE8 ++ q 0xE5))) (fun t => t.stat == 0x85) = true ∧
    nextWith (exec .rstat (start defaultConfig (q 0x08 ++ q 0xF5))) (fun t => t.stat == 0x85) = true := by
  refine ⟨⟨rfl, rfl, rfl, rfl, rfl, rfl, rfl, rfl, rfl, rfl, rfl, rfl, rfl, rfl, rfl⟩, ?_, by decide +kernel,
    by decide +kernel⟩
  intro k
  match k with
  | 0 => exact rfl
  | 1 => exact rfl
  | 2 => exact (by decide : dataNibble docMap 0xE8 = dataNibble docMap 0x08)
  | 3 => exact rfl
  | 4 => exact rfl
  | 5 => exact rfl
  | 6 => exact (by decide : dataNibble docMap 0xE5 = dataNibble docMap 0xF5)
  | 7 => exact rfl
  | k + 8 =>
    exact sameAnswer_self docMap (Config.busDraw (0 + (k + 8)))

/-- The command ends with OK: the premise of the operation counts. -/
def endsOk (i : Instr) (s : State) : Bool :=
  nextWith (exec i s) fun t =>
    decide (t.history = s.history ++ [{ word := s.cmd, trace := t.trace, rsp := some { code := .ok, data := t.rspData } }])

/-- Every arm of the counts; the poll with `k` = 1 and with `k` = `N_POLL_MAX`. -/
theorem witness_BusOperationCounts :
    defaultConfig.legal = true ∧ (pollConfig 2).legal = true ∧ (start defaultConfig []).rstIn = none ∧
    endsOk (.wnib false 3) (start defaultConfig (List.replicate 3 wOk)) = true ∧
    endsOk (.setbl true) (start defaultConfig [wOk]) = true ∧
    endsOk .init (start defaultConfig (List.replicate 12 wOk)) = true ∧
    endsOk .rstat (start defaultConfig (q 0xE8 ++ q 0xE5)) = true ∧
    endsOk .poll (start (pollConfig 2) (q 0xE0 ++ q 0xE5)) = true ∧
    endsOk .poll (start (pollConfig 2) (q 0xE8 ++ q 0xE5 ++ q 0xE0 ++ q 0xE5)) = true ∧
    endsOk (.wcmd false 1) (start defaultConfig (List.replicate 6 wOk)) = true ∧
    endsOk (.wcmd false 1) (start (pollConfig 2) (List.replicate 6 wOk ++ q 0xE0 ++ q 0xE5)) = true ∧
    endsOk (.wdata 1) (start defaultConfig (List.replicate 6 wOk)) = true ∧
    endsOk (.wdata 1) (start (pollConfig 2) (List.replicate 6 wOk ++ q 0xE8 ++ q 0xE5 ++ q 0xE0 ++ q 0xE5)) = true ∧
    endsOk .rdata (start defaultConfig (q 0xF4 ++ q 0xF8)) = true ∧
    endsOk .rdata (start (pollConfig 2) (q 0xF4 ++ q 0xF8 ++ q 0xE0 ++ q 0xE5)) = true := by
  decide +kernel

theorem witness_WnibResult : (start defaultConfig (List.replicate 3 wOk)).rstIn = none ∧
    opsOk (start defaultConfig (List.replicate 3 wOk)) 3 := by
  refine ⟨rfl, ?_⟩
  unfold opsOk
  decide +kernel

/-- Each of the three writes fails, landed or not. -/
theorem witness_WnibBusError (m : Nat) (landed : Bool) (h : m = 0 ∨ m = 1 ∨ m = 2) :
    (start defaultConfig (List.replicate m wOk ++ [.err landed])).rstIn = none ∧ m < 3 ∧
    opsOk (start defaultConfig (List.replicate m wOk ++ [.err landed])) m ∧
    replyAt (start defaultConfig (List.replicate m wOk ++ [.err landed])) m = .err landed := by
  unfold opsOk
  revert landed
  rcases h with rfl | rfl | rfl <;> decide +kernel

theorem witness_SetblResult : (start defaultConfig [wOk]).rstIn = none ∧ opsOk (start defaultConfig [wOk]) 1 := by
  unfold opsOk
  decide +kernel

theorem witness_SetblBusError : (start defaultConfig [.err true]).rstIn = none ∧
    replyAt (start defaultConfig [.err true]) 0 = .err true ∧ replyAt (start defaultConfig [.err false]) 0 = .err false := by
  decide +kernel

/-- `bl` toggled, and `bl` written as it is (V46). -/
theorem witness_BacklightIsolation :
    nextWith (exec (.setbl false) (start defaultConfig [wOk])) (fun t => t.trace == [.w 0x00 false]) = true ∧
    nextWith (exec (.setbl true) (start defaultConfig [wOk])) (fun t => t.trace == [.w 0x80 false]) = true := by
  decide +kernel

/-- E low in `shadow`, and E high in it (V48). -/
theorem witness_SetblMakesNoEdge : docMap.injective = true ∧
    nextWith (exec (.setbl false) (start defaultConfig [wOk])) (fun t => t.trace == [.w 0x00 false]) = true ∧
    nextWith (exec (.setbl false) { start defaultConfig [wOk] with shadow := 0xC2 })
      (fun t => t.trace == [.w 0x42 false]) = true := by
  decide +kernel

theorem witness_WcmdFixedResult :
    (let s := start defaultConfig (List.replicate 6 wOk)
     s.rstIn = none ∧ s.cfg.syncMode = .fixed ∧ opsOk s 6) := by
  unfold opsOk
  decide +kernel

theorem witness_WdataFixedResult :
    (let s := start defaultConfig (List.replicate 6 wOk)
     s.rstIn = none ∧ s.cfg.syncMode = .fixed ∧ opsOk s 6) := by
  unfold opsOk
  decide +kernel

/-- Idle at the first status read. -/
theorem witness_WritePollResult :
    (let s := start (pollConfig 2) (List.replicate 6 wOk ++ q 0xE0 ++ q 0xE1)
     s.rstIn = none ∧ s.cfg.syncMode = .poll ∧ pollIdleAt s 6 1 ∧ opsOk s (6 + 8 * 1)) := by
  refine ⟨rfl, rfl, ⟨by decide, by decide, ?_, by decide +kernel⟩, ?_⟩
  · intro j hj
    omega
  · unfold opsOk
    decide +kernel

/-- Idle at the last status read the bound allows. -/
theorem witness_WritePollResult_last :
    (let s := start (pollConfig 2) (List.replicate 6 wOk ++ q 0xE8 ++ q 0xE0 ++ q 0xE0 ++ q 0xE1)
     s.rstIn = none ∧ s.cfg.syncMode = .poll ∧ pollIdleAt s 6 2 ∧ opsOk s (6 + 8 * 2)) := by
  refine ⟨rfl, rfl, ⟨by decide, by decide, ?_, by decide +kernel⟩, ?_⟩
  · intro j hj
    obtain rfl : j = 0 := by omega
    decide +kernel
  · unfold opsOk
    decide +kernel

theorem witness_WritePollTimeout :
    (let s := start (pollConfig 1) (List.replicate 6 wOk ++ q 0xE8 ++ q 0xE1)
     s.rstIn = none ∧ s.cfg.legal = true ∧ s.cfg.syncMode = .poll ∧ pollAlwaysBusy s 6 ∧
       opsOk s (6 + 8 * s.cfg.nPollMax.toNat)) := by
  unfold opsOk pollAlwaysBusy
  decide +kernel

theorem witness_InitResult : (start defaultConfig (List.replicate 12 wOk)).rstIn = none ∧
    opsOk (start defaultConfig (List.replicate 12 wOk)) 12 := by
  unfold opsOk
  decide +kernel

theorem witness_InitNeverPolls :
    nextWith (exec .init (start (pollConfig 1) (List.replicate 12 wOk))) (fun t => t.trace.length == 29) = true := by
  decide +kernel

/-- The four commands together: the longest premise, with E low in `shadow`. -/
theorem witness_LatchedNibbles :
    (let s := start defaultConfig (List.replicate 12 wOk)
     s.rstIn = none ∧ s.cfg.pinMap.injective = true ∧ bitAt s.shadow s.cfg.pinMap.e = false ∧
       s.cfg.syncMode = .fixed ∧ opsOk s 3 ∧ opsOk s 6 ∧ opsOk s 12) := by
  unfold opsOk
  decide +kernel

theorem witness_EnableLeftHigh :
    (let s := { start defaultConfig (List.replicate 3 wOk) with shadow := 0xC3 }
     s.rstIn = none ∧ s.cfg.pinMap.injective = true ∧ bitAt s.shadow s.cfg.pinMap.e = true ∧ opsOk s 3) := by
  unfold opsOk
  decide +kernel

theorem witness_WcmdLeastTime :
    (let s := start defaultConfig (List.replicate 6 wOk)
     s.rstIn = none ∧ s.cfg.syncMode = .fixed ∧ opsOk s 6) := by
  unfold opsOk
  decide +kernel

/-- Both sample points. -/
theorem witness_RstatResult (p : SamplePoint) :
    (let s := start { defaultConfig with samplePoint := p } (List.replicate 8 (.ok 0xE8))
     s.rstIn = none ∧ s.cfg.readPath = .present ∧ opsOk s 8) := by
  unfold opsOk
  cases p <;> decide +kernel

theorem witness_StatOnlyWhenWhole : (start defaultConfig (q 0xE8 ++ q 0xE5)).rstIn = none ∧
    nextWith (exec .rstat (start defaultConfig (q 0xE8 ++ q 0xE5)))
      (fun t => t.stat != (start defaultConfig (q 0xE8 ++ q 0xE5)).stat) = true := by
  decide +kernel

theorem witness_RdataFixedResult :
    (let s := start defaultConfig (q 0xF4 ++ q 0xF8)
     s.rstIn = none ∧ s.cfg.readPath = .present ∧ s.cfg.syncMode = .fixed ∧ opsOk s 8) := by
  unfold opsOk
  decide +kernel

theorem witness_RdataPollResult :
    (let s := start (pollConfig 1) (q 0xF4 ++ q 0xF8 ++ q 0xE0 ++ q 0xE3)
     s.rstIn = none ∧ s.cfg.readPath = .present ∧ s.cfg.syncMode = .poll ∧ pollIdleAt s 8 1 ∧ opsOk s (8 + 8 * 1)) := by
  refine ⟨rfl, rfl, rfl, ⟨by decide, by decide, ?_, by decide +kernel⟩, ?_⟩
  · intro j hj
    omega
  · unfold opsOk
    decide +kernel

theorem witness_RdataPollTimeout :
    (let s := start (pollConfig 1) (q 0xF4 ++ q 0xF8 ++ q 0xE8 ++ q 0xE3)
     s.rstIn = none ∧ s.cfg.legal = true ∧ s.cfg.readPath = .present ∧ s.cfg.syncMode = .poll ∧ pollAlwaysBusy s 8 ∧
       opsOk s (8 + 8 * s.cfg.nPollMax.toNat)) := by
  unfold opsOk pollAlwaysBusy
  decide +kernel

/-- Idle at the last status read, in `FIXED` mode (V40). -/
theorem witness_PollResult :
    (let s := start { defaultConfig with nPollMax := 2 } (q 0xE8 ++ q 0xE0 ++ q 0xE0 ++ q 0xE1)
     s.rstIn = none ∧ s.cfg.readPath = .present ∧ pollIdleAt s 0 2 ∧ opsOk s (8 * 2)) := by
  refine ⟨rfl, rfl, ⟨by decide, by decide, ?_, by decide +kernel⟩, ?_⟩
  · intro j hj
    obtain rfl : j = 0 := by omega
    decide +kernel
  · unfold opsOk
    decide +kernel

/-- The last clause's premises too: a next command on the channel. -/
theorem witness_PollTimeout :
    (let s := { start (pollConfig 1) (q 0xE8 ++ q 0xE7) with host := [.issue 0x3000] }
     s.rstIn = none ∧ s.cfg.legal = true ∧ s.cfg.readPath = .present ∧ pollAlwaysBusy s 0 ∧
       opsOk s (8 * s.cfg.nPollMax.toNat) ∧ s.host = [.issue 0x3000] ∧ decode 0x3000 = some .rstat) := by
  unfold opsOk pollAlwaysBusy
  decide +kernel

theorem witness_PollWritesReceiveBytes :
    nextWith (exec .poll (start (pollConfig 1) (q 0xE8 ++ q 0xE7)))
      (fun t => written t.trace == [0xAF, 0xEF, 0xAF, 0xAF, 0xEF, 0xAF]) = true := by
  decide +kernel

theorem witness_ReadPathAbsent : (start absentConfig []).rstIn = none ∧ (start absentConfig []).cfg.readPath = .absent := by
  decide +kernel

/-- Each bound: CGRAM address 64 and 63, column COLS, row ROWS. -/
theorem witness_FacadeParameterChecks :
    64 ≤ 64 ∧ 63 < 64 ∧ ({ cols := 20, rows := 4 } : Geometry).cols ≤ 20 ∧ ({ cols := 20, rows := 4 } : Geometry).rows ≤ 4 := by
  decide

theorem witness_CursorPositionWords : 19 < 20 ∧ 3 < 4 := by decide

end Sys2Proof.Machine.Tests
end

section
/-! PROOFS of the statements about the state (10_state.md): reset, the step in each phase, what every command leaves
alone, and the invariant of every step. -/

namespace Sys2Proof.Machine

/-! ### What a finished command leaves, its response apart -/

theorem oneFailureLast_of_none_failed {es : List Event} (h : ∀ e ∈ es, isFailed e = false) :
    oneFailureLast es = true := by
  simp only [oneFailureLast, List.all_eq_true]
  intro e he
  simp [h e (List.mem_of_mem_dropLast he)]

theorem oneFailureLast_concat {pre : List Event} (e : Event) (h : ∀ e' ∈ pre, isFailed e' = false) :
    oneFailureLast (pre ++ [e]) = true := by
  simpa [oneFailureLast] using h

theorem lastFailed_of_none_failed {es : List Event} (h : ∀ e ∈ es, isFailed e = false) :
    es.getLast?.any isFailed = false := by
  cases hl : es.getLast? with
  | none => rfl
  | some e => exact h e (List.mem_of_getLast? hl)

/-- R139: the trace that goes with OK and with Timeout. -/
theorem preciseTrace_of_none_failed {code : RspCode} {es : List Event} (h : ∀ e ∈ es, isFailed e = false)
    (hb : code ≠ .busError) (hi : code ≠ .invalidParameter) : preciseTrace code es = true := by
  simp [preciseTrace, oneFailureLast_of_none_failed h, lastFailed_of_none_failed h, hb, hi]

/-- R139: the trace that goes with BusError. -/
theorem preciseTrace_busError {pre : List Event} {e : Event} (h : ∀ e' ∈ pre, isFailed e' = false)
    (hf : isFailed e = true) : preciseTrace .busError (pre ++ [e]) = true := by
  simp [preciseTrace, oneFailureLast_concat e h, hf]

theorem oneFailureLast_of_preciseTrace {code : RspCode} {es : List Event} (h : preciseTrace code es = true) :
    oneFailureLast es = true := by
  simp only [preciseTrace, Bool.and_eq_true] at h
  obtain ⟨⟨hlast, -⟩, -⟩ := h
  exact hlast

/-- How a command whose statements led to `u`, with the events `es`, is closed. -/
inductive Closed (u t : State) (es : List Event) : Prop where
  /-- With no response: a reset, or a bus operation that never returned. -/
  | unanswered (ht : t = u) (hes : oneFailureLast es = true)
  /-- By presenting a response that fits the events (R132, R139). -/
  | answered (code : RspCode) (data : Byte) (ht : t = endCommand code data u) (hd : responseWf code data = true)
      (hes : preciseTrace code es = true)

/-- Every way to finish is statements that ran, and at most one response. -/
theorem Finished.closed {s t : State} {es : List Event} (h : Finished s t es) : ∃ u, Did s u es ∧ Closed u t es := by
  cases h with
  | ended h =>
    cases h with
    | reset h hr => exact ⟨t, h.toDid, .unanswered rfl (oneFailureLast_of_none_failed h.ok)⟩
    | never h ok n landed hn count => exact ⟨t, h, .unanswered rfl (oneFailureLast_of_none_failed ok)⟩
    | bus u h pre e he ok hf rst ht =>
      subst he
      exact ⟨u, h, .answered .busError 0 ht rfl (preciseTrace_busError ok hf)⟩
    | timeout u h data hb ht =>
      exact ⟨u, h.toDid, .answered .timeout data ht hb (preciseTrace_of_none_failed h.ok (by simp) (by simp))⟩
  | ok u h data ht =>
    exact ⟨u, h.toDid, .answered .ok data ht rfl (preciseTrace_of_none_failed h.ok (by simp) (by simp))⟩
  | invalid he ht =>
    subst he
    exact ⟨s, Did.refl s, .answered .invalidParameter 0 ht rfl rfl⟩

/-- What a whole command does from `s` to `t`, with the events `es`, but for `seq`, the response registers and the
record of the run. -/
structure Effect (s t : State) (es : List Event) : Prop where
  trace : t.trace = s.trace ++ es
  cfg : t.cfg = s.cfg
  cmd : t.cmd = s.cmd
  host : t.host = s.host
  bl : t.bl = s.bl
  shadow : t.shadow = lastWritten s.shadow es
  held : ∀ v f, Event.w v f ∈ es → bitAt v s.cfg.pinMap.bl = s.bl
  wf : memoryWf s.mem = true → memoryWf t.mem = true
  other : ∀ a, a ≠ s.cfg.i2cAddr → readLatch t.mem a = readLatch s.mem a
  rstNone : s.rstIn = none → t.rstIn = none

theorem Did.effect {s t : State} {es : List Event} (h : Did s t es) : Effect s t es :=
  { h with }

/-- R139: ending a command rolls nothing back. -/
theorem Effect.endCommand {s u : State} {es : List Event} (h : Effect s u es) (code : RspCode) (data : Byte) :
    Effect s (endCommand code data u) es := by
  obtain ⟨hbl, hshadow, hcmd, hcfg, htrace, hmem, hhost, hrst, -, -⟩ := endCommand_keeps code data u
  exact
    { trace := htrace.trans h.trace
      cfg := hcfg.trans h.cfg
      cmd := hcmd.trans h.cmd
      host := hhost.trans h.host
      bl := hbl.trans h.bl
      shadow := hshadow.trans h.shadow
      held := h.held
      wf := by rw [hmem]; exact h.wf
      other := by rw [hmem]; exact h.other
      rstNone := by rw [hrst]; exact h.rstNone }

theorem Finished.effect {s t : State} {es : List Event} (h : Finished s t es) : Effect s t es := by
  obtain ⟨u, hd, hc⟩ := h.closed
  cases hc with
  | unanswered ht _ => exact ht ▸ hd.effect
  | answered code data ht _ _ => exact ht ▸ hd.effect.endCommand code data

/-- `exec_finished` for a next state that is given. -/
theorem finished_of_exec {i : Instr} {s t : State} (h : exec i s = .next t) : ∃ es, Finished (started i s) t es := by
  obtain ⟨t', es, h', hf⟩ := exec_finished i s
  cases h.symm.trans h'
  exact ⟨es, hf⟩

theorem exec_effect {i : Instr} {s t : State} (h : exec i s = .next t) : ∃ es, Effect (started i s) t es := by
  obtain ⟨es, hf⟩ := finished_of_exec h
  exact ⟨es, hf.effect⟩

/-- R24: only SETBL writes a register before its first statement on the bus. -/
theorem started_of_ne_setbl {i : Instr} (h : ∀ b, i ≠ .setbl b) (s : State) : started i s = s := by
  cases i with
  | setbl b => exact absurd rfl (h b)
  | _ => rfl

/-- `started` writes nothing but `bl`. -/
theorem started_eq (i : Instr) (s : State) : started i s = setBl (started i s).bl s := by
  cases i <;> rfl

/-- Settles O27, from the effect every command has: SETBL's write to `bl` touches neither the trace nor `shadow`. -/
theorem shadowIsLastWritten : Obligations.ShadowIsLastWritten := by
  unfold Obligations.ShadowIsLastWritten
  intro i s t h
  obtain ⟨es, he⟩ := exec_effect h
  rw [started_eq] at he
  exact ⟨es, he.trace, he.shadow⟩

/-- Settles O28, from the effect every command has. -/
theorem frameOfEveryCommand : Obligations.FrameOfEveryCommand := by
  unfold Obligations.FrameOfEveryCommand
  intro i s t h
  obtain ⟨es, he⟩ := exec_effect h
  have hbl := he.bl
  rw [started_eq] at he
  refine ⟨he.cfg, he.cmd, he.host, ?_, ?_, he.other⟩
  · intro hi
    rw [hbl, started_of_ne_setbl hi]
  · rintro b rfl
    exact hbl

/-! ### The read registers each command leaves alone -/

/-- R16: the response leaves a quiet view as it is. -/
theorem Keeps.close {γ : Type} {view : State → γ} (q : Quiet view) {s : State} {f : Flow Byte} (h : Keeps view s f) :
    view (closeCommand f) = view s := by
  cases f with
  | run data t => exact (q.finish .ok data t).trans h
  | ended t => exact h

theorem withReadPath_keeps {γ : Type} {view : State → γ} (q : Quiet view) {s : State} {f : Flow Byte}
    (h : Keeps view s f) : Keeps view s (withReadPath s f) := by
  unfold withReadPath
  split
  · exact h
  · exact q.finish .invalidParameter 0 s

/-- No statement of a command writes the configuration (R7). -/
theorem Sat.keeps_cfg {α : Type} {s : State} {f : Flow α} (h : Sat s f) : Keeps State.cfg s f := by
  cases f with
  | run a t =>
    obtain ⟨es, he⟩ := h
    exact he.cfg
  | ended t =>
    obtain ⟨es, he⟩ := h
    exact (Finished.ended he).effect.cfg

/-- A flow from a state in which the view is the same. -/
theorem Keeps.of_view_eq {α γ : Type} {view : State → γ} {s t : State} {f : Flow α} (hv : view t = view s)
    (h : Keeps view t f) : Keeps view s f := by
  cases f <;> exact Eq.trans h hv

/-- Two statements one after the other, the second under the configuration of the first. -/
theorem Keeps.andThen_cfg {α β γ : Type} {view : State → γ} {s : State} {f : Flow α} {k : α → State → Flow β}
    (hf : Keeps view s f) (hc : Keeps State.cfg s f) (hk : ∀ a t, t.cfg = s.cfg → Keeps view t (k a t)) :
    Keeps view s (Machine.andThen f k) := by
  cases f with
  | ended t => exact hf
  | run a t => exact (hk a t hc).of_view_eq hf

/-- R123: in `FIXED` mode a sync is a wait. -/
theorem sync_fixed_keeps {γ : Type} {view : State → γ} (q : Quiet view) (long : Bool) {s : State}
    (h : s.cfg.syncMode = .fixed) : Keeps view s (sync long s) := by
  simp only [sync, h]
  exact (wait_keeps q _ s).andThen fun _ s => Keeps.run view _ s

/-- R109: WNIB keeps every quiet view. -/
theorem execWnib_keeps {γ : Type} {view : State → γ} (q : Quiet view) {rs : Bool} {n : Nibble} {s t : State}
    (h : exec (.wnib rs n) s = .next t) : view t = view s := by
  cases h
  exact ((txNibble_keeps q n rs s).andThen fun _ s => Keeps.run view (0 : Byte) s).close q

/-- R97: SETBL keeps every quiet view that does not see `bl`. -/
theorem execSetbl_keeps {γ : Type} {view : State → γ} (q : Quiet view) (hb : ∀ b s, view (setBl b s) = view s)
    {b : Bool} {s t : State} (h : exec (.setbl b) s = .next t) : view t = view s := by
  cases h
  exact (((portWrite_keeps q (backlightByte b s) (setBl b s)).andThen fun _ s =>
    Keeps.run view (0 : Byte) s).close q).trans (hb b s)

/-- R115: INIT keeps every quiet view. -/
theorem execInit_keeps {γ : Type} {view : State → γ} (q : Quiet view) {s t : State}
    (h : exec .init s = .next t) : view t = view s := by
  cases h
  exact ((wait_keeps q s.cfg.tInit0 s).andThen fun _ s =>
    (txNibble_keeps q s.cfg.fs8 false s).andThen fun _ s => (wait_keeps q s.cfg.tInit1 s).andThen fun _ s =>
    (txNibble_keeps q s.cfg.fs8 false s).andThen fun _ s => (wait_keeps q s.cfg.tInit2 s).andThen fun _ s =>
    (txNibble_keeps q s.cfg.fs8 false s).andThen fun _ s => (wait_keeps q s.cfg.tInit3 s).andThen fun _ s =>
    (txNibble_keeps q s.cfg.fs4 false s).andThen fun _ s => (wait_keeps q s.cfg.tExecShort s).andThen fun _ s =>
    Keeps.run view (0 : Byte) s).close q

/-- R113, R114: a byte transaction and its sync in `FIXED` mode. -/
theorem txByte_sync_fixed_keeps {γ : Type} {view : State → γ} (q : Quiet view) (b : Byte) (rs long : Bool) {s : State}
    (hm : s.cfg.syncMode = .fixed) : Keeps view s (andThen (txByte b rs s) fun _ s => sync long s) :=
  (txByte_keeps q b rs s).andThen_cfg (txByte_sat b rs s).keeps_cfg fun _ _ hc =>
    sync_fixed_keeps q long (by rw [hc, hm])

/-- R129: a byte read writes the nibbles alone, and the sync in `FIXED` mode nothing. -/
theorem execRdata_fixed_statRegs {s t : State} (hm : s.cfg.syncMode = .fixed) (h : exec .rdata s = .next t) :
    statRegs t = statRegs s := by
  cases h
  have hr : Keeps statRegs s (rxByte true s) := rxByte_keeps quiet_statRegs (fun _ _ => rfl) (fun _ _ => rfl) true s
  exact (withReadPath_keeps quiet_statRegs
    (hr.andThen_cfg (rxByte_sat true s).keeps_cfg fun x t hc =>
      (sync_fixed_keeps quiet_statRegs false (by rw [hc, hm])).andThen fun _ s => Keeps.run statRegs x s)).close
    quiet_statRegs

theorem execRstat_pollRegs {s t : State} (h : exec .rstat s = .next t) : pollRegs t = pollRegs s := by
  cases h
  exact (withReadPath_keeps quiet_pollRegs (statusRead_pollRegs s)).close quiet_pollRegs

theorem readRegs_eq_iff {s t : State} :
    readRegs t = readRegs s ↔ t.nibHi = s.nibHi ∧ t.nibLo = s.nibLo ∧ t.stat = s.stat ∧ t.pcount = s.pcount := by
  simp [readRegs]

/-- Settles O29: what each command's flow keeps of the four read registers, command by command. -/
theorem frameOfReadRegisters : Obligations.FrameOfReadRegisters := by
  unfold Obligations.FrameOfReadRegisters
  intro s t
  simp only [← readRegs_eq_iff]
  refine ⟨?wnib, ?setbl, ?init, ?wcmd, ?wdata, ?rdata, ?rstat⟩
  case wnib => exact fun rs n h => execWnib_keeps quiet_readRegs h
  case setbl => exact fun b h => execSetbl_keeps quiet_readRegs (fun _ _ => rfl) h
  case init => exact fun h => execInit_keeps quiet_readRegs h
  case wcmd =>
    intro lw b hm h
    cases h
    exact (txByte_sync_fixed_keeps quiet_readRegs b false lw hm).close quiet_readRegs
  case wdata =>
    intro b hm h
    cases h
    exact (txByte_sync_fixed_keeps quiet_readRegs b true false hm).close quiet_readRegs
  case rdata =>
    intro hm h
    simpa [statRegs] using execRdata_fixed_statRegs hm h
  case rstat => exact fun h => congrArg Prod.fst (execRstat_pollRegs h)

/-! ### Reset -/

/-- Settles O13. Under `DOCMAP` the reset byte is its BL bit alone. -/
theorem resetValues : Obligations.ResetValues := by
  unfold Obligations.ResetValues
  intro c
  refine ⟨rfl, rfl, rfl, ?docMap, rfl, rfl, rfl, rfl, rfl, rfl, rfl, rfl, rfl⟩
  case docMap =>
    intro h
    simp only [resetWith_shadow, resetShadow, h]
    cases c.blInit <;> decide

theorem doReset_legal {c : Config} (h : c.legal = true) (s : State) : doReset c s = .next (resetNow c s) := by
  simp [doReset, h]

theorem doReset_illegal {c : Config} (h : c.legal = false) (s : State) : doReset c s = .refused .illegalConfig := by
  simp [doReset, h]

/-- R150: the record of a run after a reset. -/
theorem abandoned_eq (s : State) :
    abandoned s =
      if s.seq = .busy then s.history ++ [{ word := s.cmd, trace := s.trace, rsp := none }] else s.history := by
  unfold abandoned
  cases s.seq <;> rfl

/-! ### The step at each move of the host -/

theorem step_reset {s : State} {c : Config} {rest : List HostMove} (h : s.host = .reset c :: rest) :
    step s = doReset c { s with host := rest } := by
  simp [step, h]

theorem step_issue {s : State} {w : CmdWord} {rest : List HostMove} (h : s.host = .issue w :: rest) :
    step s = whenReady s (runWord w (accept w none { s with host := rest })) := by
  simp [step, h]

/-- Every step but a reset is subject to the test of the configuration and of the phase. -/
theorem step_eq_whenReady {s : State} (h : ∀ c rest, s.host ≠ .reset c :: rest) : ∃ o, step s = whenReady s o := by
  unfold step
  split
  · exact ⟨_, rfl⟩
  · exact ⟨_, rfl⟩
  · rename_i c rest hh
    exact absurd hh (h c rest)
  · exact ⟨_, rfl⟩

theorem whenReady_idle {s : State} (hl : s.cfg.legal = true) (hq : s.seq = .idle) (o : Outcome) : whenReady s o = o := by
  simp [whenReady, hl, hq]

theorem whenReady_busy {s : State} (hl : s.cfg.legal = true) (hq : s.seq = .busy) (o : Outcome) :
    whenReady s o = .fault .stuckBusy := by
  simp [whenReady, hl, hq]

theorem whenReady_illegal {s : State} (hl : s.cfg.legal = false) (o : Outcome) :
    whenReady s o = .refused .illegalConfig := by
  simp [whenReady, hl]

theorem runWord_decoded {w : CmdWord} {i : Instr} (h : decode w = some i) (s : State) : runWord w s = exec i s := by
  simp [runWord, h]

/-- Settles O14, from the values `resetNow` leaves in each register. -/
theorem resetFromAnyState : Obligations.ResetFromAnyState := by
  unfold Obligations.ResetFromAnyState
  intro s c rest hh hc
  refine ⟨_, (step_reset hh).trans (doReset_legal hc _), ?_⟩
  exact ⟨rfl, rfl, rfl, rfl, rfl, rfl, rfl, rfl, rfl, rfl, rfl, rfl, rfl, rfl, abandoned_eq { s with host := rest }⟩

/-- Settles O16: an issued word passes the test of configuration and phase, and then runs as decoded. -/
theorem stepRunsDecoded : Obligations.StepRunsDecoded := by
  unfold Obligations.StepRunsDecoded
  intro s w rest i hh hl hq hd
  rw [step_issue hh, whenReady_idle hl hq, runWord_decoded hd]
  rfl

/-- Settles O19: every move but a reset is subject to the test of the phase. -/
theorem busyAcceptsNothing : Obligations.BusyAcceptsNothing := by
  unfold Obligations.BusyAcceptsNothing
  intro s hl hq hh
  obtain ⟨o, ho⟩ := step_eq_whenReady hh
  rw [ho, whenReady_busy hl hq]

/-- R33, R119: the four conditions of a legal configuration. -/
theorem config_legal_iff (c : Config) :
    c.legal = true ↔
      c.pinMap.indices.Nodup ∧ c.nPollMax ≠ 0 ∧ 0 < c.tPw ∧ (c.readPath = .absent → c.syncMode = .fixed) := by
  have hmode : c.syncMode ≠ .poll ↔ c.syncMode = .fixed := by cases c.syncMode <;> simp
  simp [Config.legal, PinMap.injective, and_assoc, hmode, imp_iff_not_or]

/-- Settles O21: the test of the step and that of the reset, and what they test. -/
theorem illegalConfigRefused : Obligations.IllegalConfigRefused := by
  unfold Obligations.IllegalConfigRefused
  refine ⟨?inForce, ?sampled, config_legal_iff⟩
  case inForce =>
    intro s hl hh
    obtain ⟨o, ho⟩ := step_eq_whenReady hh
    rw [ho, whenReady_illegal hl]
  case sampled =>
    intro s c rest hh hc
    rw [step_reset hh, doReset_illegal hc]

/-- R42: in `IDLE` a reset does not read `cmd`. -/
theorem resetNow_cmd_unread {s : State} (hq : s.seq = .idle) (c : Config) (x : CmdWord) :
    resetNow c { s with cmd := x } = resetNow c s := by
  simp [resetNow, abandoned, hq]

/-- Settles O22: acceptance overwrites `cmd`, and a reset in `IDLE` does not read it. -/
theorem cmdUnreadInIdle : Obligations.CmdUnreadInIdle := by
  unfold Obligations.CmdUnreadInIdle
  intro s x hq
  refine ⟨?move, ?none⟩
  case move =>
    intro hne
    cases hh : s.host with
    | nil => exact absurd hh hne
    | cons m rest =>
      cases m with
      | issue w => simp only [step, hh]; rfl
      | issueReset w n c => simp only [step, hh]; rfl
      | reset c =>
        simp only [step, hh, doReset]
        rw [resetNow_cmd_unread (s := { s with host := rest }) hq]
  case none =>
    intro hh hl
    simp only [step, hh]
    exact whenReady_idle hl hq _

/-! ### The invariant (10_state.md R30, R33; 60_exceptions.md R132, R139) -/

/-- The part of the invariant that holds of a command even when a reset cuts it short. -/
structure Recorded (s : State) : Prop where
  mem : memoryWf s.mem = true
  trace : oneFailureLast s.trace = true
  history : s.history.all exchangeWf = true

/-- `inv` by its conjuncts. -/
structure Invariant (s : State) : Prop extends Recorded s where
  legal : s.cfg.legal = true
  pcount : pcountBound s = true
  backlight : backlightHeld s = true
  response : responseWf s.rspCode s.rspData = true
  noReset : s.rstIn = none

theorem inv_iff (s : State) : inv s = true ↔ Invariant s := by
  simp only [inv, Bool.and_eq_true, beq_iff_eq]
  constructor
  · rintro ⟨⟨⟨⟨⟨⟨⟨hlegal, hmem⟩, hpcount⟩, hbl⟩, hrsp⟩, htrace⟩, hhist⟩, hrst⟩
    exact ⟨⟨hmem, htrace, hhist⟩, hlegal, hpcount, hbl, hrsp, hrst⟩
  · rintro ⟨⟨hmem, htrace, hhist⟩, hlegal, hpcount, hbl, hrsp, hrst⟩
    exact ⟨⟨⟨⟨⟨⟨⟨hlegal, hmem⟩, hpcount⟩, hbl⟩, hrsp⟩, htrace⟩, hhist⟩, hrst⟩

theorem backlightHeld_iff (s : State) : backlightHeld s = true ↔ bitAt s.shadow s.cfg.pinMap.bl = s.bl := by
  simp [backlightHeld]

/-! #### Reset establishes it -/

/-- R41: the reset byte carries `BL_INIT`. -/
theorem resetShadow_held (c : Config) : bitAt (resetShadow c) c.pinMap.bl = c.blInit := by
  simp [resetShadow]

/-- R150: the exchange of an abandoned command is in order. -/
theorem abandoned_wf {s : State} (h : Recorded s) : (abandoned s).all exchangeWf = true := by
  rw [abandoned_eq]
  split
  · simp [List.all_append, h.history, exchangeWf, h.trace]
  · exact h.history

theorem resetNow_invariant {c : Config} {s : State} (hc : c.legal = true) (h : Recorded s) : Invariant (resetNow c s) where
  mem := h.mem
  trace := rfl
  history := abandoned_wf h
  legal := hc
  pcount := by simp [pcountBound]
  backlight := (backlightHeld_iff _).2 (resetShadow_held c)
  response := rfl
  noReset := rfl

/-- Power-up is a reset with nothing on record. -/
theorem resetWith_eq_resetNow (c : Config) : State.resetWith c = resetNow c (State.resetWith c) := rfl

theorem resetWith_recorded (c : Config) : Recorded (State.resetWith c) :=
  ⟨rfl, rfl, rfl⟩

theorem resetWith_inv {c : Config} (hc : c.legal = true) : inv (State.resetWith c) = true := by
  rw [inv_iff, resetWith_eq_resetNow]
  exact resetNow_invariant hc (resetWith_recorded c)

theorem defaultConfig_legal : defaultConfig.legal = true := by decide

/-- Settles O23: power-up is a reset with nothing on record, and `defaultConfig` is legal. -/
theorem invAfterReset : Obligations.InvAfterReset :=
  ⟨resetWith_inv defaultConfig_legal, fun _ hc => resetWith_inv hc⟩

/-! #### The record and the response of a command -/

/-- R132, R139: a response that fits its trace leaves the record in order. -/
theorem endCommand_recorded {code : RspCode} {data : Byte} {u : State} (h : Recorded u)
    (hd : responseWf code data = true) (ht : preciseTrace code u.trace = true) : Recorded (endCommand code data u) := by
  by_cases hr : u.rstIn = some 0
  · rw [endCommand_some_zero hr]
    exact h
  · rw [endCommand_presented hr]
    exact ⟨h.mem, h.trace, by simp [List.all_append, h.history, exchangeWf, hd, ht]⟩

theorem endCommand_response {code : RspCode} {data : Byte} {u : State} (h : responseWf u.rspCode u.rspData = true)
    (hd : responseWf code data = true) :
    responseWf (endCommand code data u).rspCode (endCommand code data u).rspData = true := by
  by_cases hr : u.rstIn = some 0
  · rw [endCommand_some_zero hr]
    exact h
  · rw [endCommand_presented hr]
    exact hd

/-- A command that starts with an empty trace leaves the record in order, whenever a reset comes. -/
theorem Finished.recorded {s t : State} {es : List Event} (h : Finished s t es) (hs : Recorded s) (he : s.trace = []) :
    Recorded t := by
  obtain ⟨u, hd, hc⟩ := h.closed
  have htrace : u.trace = es := by rw [hd.trace, he, List.nil_append]
  have hu : oneFailureLast es = true → Recorded u := fun hes =>
    ⟨hd.wf hs.mem, by rw [htrace]; exact hes, by rw [hd.history]; exact hs.history⟩
  cases hc with
  | unanswered ht hes => exact ht ▸ hu hes
  | answered code data ht hd hes =>
    exact ht ▸ endCommand_recorded (hu (oneFailureLast_of_preciseTrace hes)) hd (by rw [htrace]; exact hes)

theorem Finished.response {s t : State} {es : List Event} (h : Finished s t es)
    (hs : responseWf s.rspCode s.rspData = true) : responseWf t.rspCode t.rspData = true := by
  obtain ⟨u, hd, hc⟩ := h.closed
  have hu : responseWf u.rspCode u.rspData = true := by rw [hd.rspCode, hd.rspData]; exact hs
  cases hc with
  | unanswered ht hes => exact ht ▸ hu
  | answered code data ht hd hes => exact ht ▸ endCommand_response hu hd

/-! #### The backlight bit of `shadow` -/

/-- A property of one bit of every byte written is one of the last byte written. -/
theorem bitAt_lastWritten {prev : Byte} {es : List Event} {i : Fin 8} {b : Bool} (hp : bitAt prev i = b)
    (h : ∀ v f, Event.w v f ∈ es → bitAt v i = b) : bitAt (lastWritten prev es) i = b := by
  induction es generalizing prev with
  | nil => exact hp
  | cons e es ih =>
    have htail : ∀ v f, Event.w v f ∈ es → bitAt v i = b := fun v f hm => h v f (List.mem_cons_of_mem _ hm)
    cases e with
    | w v f => exact ih (h v f List.mem_cons_self) htail
    | r v => exact ih hp htail
    | rFail => exact ih hp htail
    | d t => exact ih hp htail

theorem Effect.backlightHeld {s t : State} {es : List Event} (h : Effect s t es) (hs : backlightHeld s = true) :
    backlightHeld t = true := by
  rw [backlightHeld_iff] at hs ⊢
  rw [h.shadow, h.cfg, h.bl]
  exact bitAt_lastWritten hs h.held

@[simp] theorem endCommand_shadow (code : RspCode) (data : Byte) (s : State) :
    (endCommand code data s).shadow = s.shadow := by
  obtain ⟨-, h, -⟩ := endCommand_keeps code data s
  exact h

/-- R27, R97: with no reset pending SETBL always issues its byte, so `shadow` carries the new flag. -/
theorem execSetbl_shadow {b : Bool} {s t : State} (hr : s.rstIn = none) (h : exec (.setbl b) s = .next t) :
    t.shadow = backlightByte b s := by
  cases h
  rw [portWrite, tick_none (setBl b s) hr, andThen_run]
  cases replyAt (setBl b s) 0 <;> simp [closeCommand, respond, raiseError, setShadow]

theorem execSetbl_backlightHeld {b : Bool} {s t : State} (hr : s.rstIn = none) (h : exec (.setbl b) s = .next t) :
    backlightHeld t = true := by
  obtain ⟨es, he⟩ := exec_effect h
  rw [backlightHeld_iff, he.cfg, he.bl, execSetbl_shadow hr h]
  exact backlightByte_held b s

theorem exec_backlightHeld {i : Instr} {s t : State} (hr : s.rstIn = none) (hs : backlightHeld s = true)
    (h : exec i s = .next t) : backlightHeld t = true := by
  by_cases hi : ∃ b, i = .setbl b
  · obtain ⟨b, rfl⟩ := hi
    exact execSetbl_backlightHeld hr h
  · obtain ⟨es, he⟩ := exec_effect h
    rw [started_of_ne_setbl (fun b e => hi ⟨b, e⟩)] at he
    exact he.backlightHeld hs

/-! #### The bound of `pcount` -/

/-- R30, R33: what a poll needs of the state and leaves in it. -/
structure PollSafe (s : State) : Prop where
  enabled : s.cfg.nPollMax ≠ 0
  bound : pcountBound s = true

/-- A flow leaves a `PollSafe` state, wherever the command goes no further. -/
def EndsPollSafe {α : Type} (f : Flow α) : Prop :=
  match f with
  | .run _ t => PollSafe t
  | .ended t => PollSafe t

theorem PollSafe.of_pollRegs {s t : State} (hs : PollSafe s) (h : pollRegs t = pollRegs s) : PollSafe t := by
  simp only [pollRegs, Prod.mk.injEq] at h
  obtain ⟨hp, hc⟩ := h
  exact ⟨by rw [hc]; exact hs.enabled, by simpa [pcountBound, hp, hc] using hs.bound⟩

theorem Keeps.endsPollSafe {α : Type} {s : State} {f : Flow α} (h : Keeps pollRegs s f) (hs : PollSafe s) :
    EndsPollSafe f := by
  cases f with
  | run a t => exact hs.of_pollRegs h
  | ended t => exact hs.of_pollRegs h

theorem EndsPollSafe.andThen {α β : Type} {f : Flow α} {k : α → State → Flow β} (hf : EndsPollSafe f)
    (hk : ∀ a t, PollSafe t → EndsPollSafe (k a t)) : EndsPollSafe (andThen f k) := by
  cases f with
  | run a t => exact hk a t hf
  | ended t => exact hf

theorem run_endsPollSafe {α : Type} (a : α) {s : State} (hs : PollSafe s) : EndsPollSafe (.run a s) := hs

/-- R125: a poll sets `pcount` to 0 and then counts to the bound at most. -/
theorem pollBusy_endsPollSafe {s : State} (hs : PollSafe s) : EndsPollSafe (pollBusy s) := by
  have hpos : 0 < s.cfg.nPollMax.toNat := Nat.pos_of_ne_zero fun e => hs.enabled (BitVec.eq_of_toNat_eq e)
  have hbound := pollLoop_bound (pollFuel s.cfg) (setPcount 0 s) (by simpa using hpos)
  have hcfg : Keeps State.cfg s (pollBusy s) := (pollBusy_sat s).keeps_cfg
  have hsafe : ∀ t : State, t.cfg = s.cfg → t.pcount.toNat ≤ s.cfg.nPollMax.toNat → PollSafe t := fun t hc hp =>
    ⟨by rw [hc]; exact hs.enabled, by simpa [pcountBound, hc] using hp⟩
  unfold pollBusy at hcfg ⊢
  cases hf : pollLoop (pollFuel s.cfg) (setPcount 0 s) with
  | run a t =>
    rw [hf] at hbound hcfg
    exact hsafe t hcfg hbound
  | ended t =>
    rw [hf] at hbound hcfg
    exact hsafe t hcfg hbound

theorem sync_endsPollSafe (long : Bool) {s : State} (hs : PollSafe s) : EndsPollSafe (sync long s) := by
  cases hm : s.cfg.syncMode with
  | fixed => exact (sync_fixed_keeps quiet_pollRegs long hm).endsPollSafe hs
  | poll =>
    simp only [sync, hm]
    exact pollBusy_endsPollSafe hs

theorem withReadPath_endsPollSafe {s : State} {f : Flow Byte} (hs : PollSafe s) (hf : EndsPollSafe f) :
    EndsPollSafe (withReadPath s f) := by
  unfold withReadPath
  split
  · exact hf
  · exact hs.of_pollRegs (quiet_pollRegs.finish .invalidParameter 0 s)

theorem EndsPollSafe.close {f : Flow Byte} (h : EndsPollSafe f) : PollSafe (closeCommand f) := by
  cases f with
  | run data t => exact PollSafe.of_pollRegs h (quiet_pollRegs.finish .ok data t)
  | ended t => exact h

/-- R30, R168: every command keeps `pcount` within its bound. -/
theorem exec_pollSafe {i : Instr} {s t : State} (hs : PollSafe s) (h : exec i s = .next t) : PollSafe t := by
  have hrx : ∀ rs, Keeps pollRegs s (rxByte rs s) := fun rs =>
    rxByte_keeps quiet_pollRegs (fun _ _ => rfl) (fun _ _ => rfl) rs s
  cases i with
  | wnib rs n => exact hs.of_pollRegs (execWnib_keeps quiet_pollRegs h)
  | setbl b => exact hs.of_pollRegs (execSetbl_keeps quiet_pollRegs (fun _ _ => rfl) h)
  | init => exact hs.of_pollRegs (execInit_keeps quiet_pollRegs h)
  | rstat => exact hs.of_pollRegs (execRstat_pollRegs h)
  | wcmd lw b =>
    cases h
    exact (((txByte_keeps quiet_pollRegs b false s).endsPollSafe hs).andThen fun _ _ ht =>
      sync_endsPollSafe lw ht).close
  | wdata b =>
    cases h
    exact (((txByte_keeps quiet_pollRegs b true s).endsPollSafe hs).andThen fun _ _ ht =>
      sync_endsPollSafe false ht).close
  | rdata =>
    cases h
    exact (withReadPath_endsPollSafe hs (((hrx true).endsPollSafe hs).andThen fun _ _ ht =>
      (sync_endsPollSafe false ht).andThen fun _ _ hu => run_endsPollSafe _ hu)).close
  | poll =>
    cases h
    exact (withReadPath_endsPollSafe hs (pollBusy_endsPollSafe hs)).close

/-! #### Every step keeps it -/

/-- R86: the two ways a command word runs. -/
theorem runWord_cases {w : CmdWord} {s t : State} (h : runWord w s = .next t) :
    (∃ i, exec i s = .next t) ∨ t = endCommand .invalidParameter 0 s := by
  unfold runWord at h
  split at h
  · exact .inl ⟨_, h⟩
  · cases h
    exact .inr rfl

/-- `runWord_finished` for a next state that is given. -/
theorem finished_of_runWord {w : CmdWord} {s t : State} (h : runWord w s = .next t) :
    ∃ b es, Finished (setBl b s) t es := by
  obtain ⟨t', es, b, h', hf⟩ := runWord_finished w s
  cases h.symm.trans h'
  exact ⟨b, es, hf⟩

/-- A word keeps the record in order, whenever a reset comes. -/
theorem runWord_recorded {w : CmdWord} {s t : State} (hs : Recorded s) (he : s.trace = [])
    (h : runWord w s = .next t) : Recorded t := by
  obtain ⟨b, es, hf⟩ := finished_of_runWord h
  exact hf.recorded ⟨hs.mem, hs.trace, hs.history⟩ he

theorem runWord_backlightHeld {w : CmdWord} {s t : State} (hs : Invariant s) (h : runWord w s = .next t) :
    backlightHeld t = true := by
  rcases runWord_cases h with ⟨i, hi⟩ | rfl
  · exact exec_backlightHeld hs.noReset hs.backlight hi
  · exact ((Did.refl s).effect.endCommand _ _).backlightHeld hs.backlight

theorem Invariant.pollSafe {s : State} (h : Invariant s) : PollSafe s := by
  obtain ⟨-, hN, -, -⟩ := (config_legal_iff s.cfg).1 h.legal
  exact ⟨hN, h.pcount⟩

theorem runWord_pollSafe {w : CmdWord} {s t : State} (hs : PollSafe s) (h : runWord w s = .next t) : PollSafe t := by
  rcases runWord_cases h with ⟨i, hi⟩ | rfl
  · exact exec_pollSafe hs hi
  · exact hs.of_pollRegs (quiet_pollRegs.finish _ _ _)

theorem runWord_invariant {w : CmdWord} {s t : State} (hs : Invariant s) (he : s.trace = [])
    (h : runWord w s = .next t) : Invariant t := by
  obtain ⟨b, es, hf⟩ := finished_of_runWord h
  exact
    { runWord_recorded hs.toRecorded he h with
      legal := by rw [hf.effect.cfg]; exact hs.legal
      pcount := (runWord_pollSafe hs.pollSafe h).bound
      backlight := runWord_backlightHeld hs h
      response := hf.response hs.response
      noReset := hf.effect.rstNone hs.noReset }

/-- R37: acceptance starts an empty trace and leaves the rest of the record. -/
theorem accept_recorded {s : State} (h : Recorded s) (w : CmdWord) (r : Option Nat) (rest : List HostMove) :
    Recorded (accept w r { s with host := rest }) :=
  ⟨h.mem, rfl, h.history⟩

theorem accept_invariant {s : State} (h : Invariant s) (w : CmdWord) (rest : List HostMove) :
    Invariant (accept w none { s with host := rest }) :=
  { accept_recorded h.toRecorded w none rest with
    legal := h.legal
    pcount := h.pcount
    backlight := h.backlight
    response := h.response
    noReset := rfl }

/-- Settles O24, by the kind of step: waiting, a reset, a command, a command with a reset during it. -/
theorem stepKeepsInv : Obligations.StepKeepsInv := by
  unfold Obligations.StepKeepsInv
  intro s t hs hstep
  rw [inv_iff] at hs ⊢
  rcases step_cases hstep with ⟨-, -, -, rfl⟩ | ⟨c, rest, -, hc, rfl⟩ | ⟨w, rest, -, -, -, hrun⟩ |
    ⟨w, n, c, rest, u, -, -, -, hc, hrun, rfl⟩
  · exact hs
  · exact resetNow_invariant hc ⟨hs.mem, hs.trace, hs.history⟩
  · exact runWord_invariant (accept_invariant hs w rest) rfl hrun
  · exact resetNow_invariant hc (runWord_recorded (accept_recorded hs.toRecorded w (some n) rest) rfl hrun)

end Sys2Proof.Machine
end

section
/-! PROOFS of the statements about the expander and the controller's lines (20_memory.md): what the commands that only
write do on the bus, and the latch edges their traces make. -/

namespace Sys2Proof.Machine

/-! ### The latch edges of a trace (R54, R101) -/

@[simp] theorem latchEdges_nil (pm : PinMap) (prev : Byte) : latchEdges pm prev [] = [] := rfl

@[simp] theorem latchEdges_wait (pm : PinMap) (prev : Byte) (t : Duration) (es : List Event) :
    latchEdges pm prev (.d t :: es) = latchEdges pm prev es := rfl

theorem latchEdges_write (pm : PinMap) (prev v : Byte) (f : Bool) (es : List Event) :
    latchEdges pm prev (.w v f :: es) =
      (if bitAt prev pm.e && !bitAt v pm.e then [{ rs := bitAt v pm.rs, rw := bitAt v pm.rw, d := dataNibble pm v }]
        else []) ++ latchEdges pm v es := by
  simp only [latchEdges]
  split <;> rfl

/-- A trace makes the edges of its first part, and then those of the rest, seen from the last byte written. -/
theorem latchEdges_append (pm : PinMap) (prev : Byte) (es es' : List Event) :
    latchEdges pm prev (es ++ es') = latchEdges pm prev es ++ latchEdges pm (lastWritten prev es) es' := by
  induction es generalizing prev with
  | nil => rfl
  | cons e es ih =>
    cases e with
    | w v f => rw [List.cons_append, latchEdges_write, latchEdges_write, ih, List.append_assoc]; rfl
    | r v => exact ih prev
    | rFail => exact ih prev
    | d t => exact ih prev

/-- A wait at the end of a trace makes no edge. -/
theorem latchEdges_append_wait (pm : PinMap) (prev : Byte) (es : List Event) (t : Duration) :
    latchEdges pm prev (es ++ [.d t]) = latchEdges pm prev es := by
  simp [latchEdges_append]

/-- R156: a write that leaves the E bit as it was is no edge. -/
theorem latchEdges_write_same_e {pm : PinMap} {prev v : Byte} (h : bitAt v pm.e = bitAt prev pm.e) (f : Bool) :
    latchEdges pm prev [.w v f] = [] := by
  simp [latchEdges_write, h]

/-! ### SETBL (R97, R156) -/

@[simp] theorem endCommand_trace (code : RspCode) (data : Byte) (s : State) :
    (endCommand code data s).trace = s.trace := by
  obtain ⟨-, -, -, -, h, -⟩ := endCommand_keeps code data s
  exact h

/-- R97: SETBL is cut off by a reset before its write, or it issues its one byte, whatever the bus answers. -/
theorem execSetbl_trace_cases {b : Bool} {s t : State} (h : exec (.setbl b) s = .next t) :
    (t.trace = s.trace ∧ t.shadow = s.shadow) ∨
      ∃ f, t.trace = s.trace ++ [.w (backlightByte b s) f] ∧ t.shadow = backlightByte b s := by
  cases h
  rcases portWrite_body (backlightByte b s) (setBl b s) with ⟨hw, -⟩ | ⟨s', hn, hw⟩
  · left
    simp [hw, closeCommand]
  · right
    have htrace : s'.trace = s.trace := by rw [hn.eq]; rfl
    rw [hw, writeBody]
    cases replyAt s' 0 <;> simp [closeCommand, respond, raiseError, htrace]

/-- R97: the byte SETBL issues differs from `shadow` in its BL bit alone. -/
theorem bitAt_backlightByte_other {s : State} {i : Fin 8} (h : i ≠ s.cfg.pinMap.bl) (b : Bool) :
    bitAt (backlightByte b s) i = bitAt s.shadow i :=
  bitAt_setBitAt_other _ _ _ _ h

/-- R8: an injective wiring keeps E and BL apart. -/
theorem e_ne_bl_of_injective {pm : PinMap} (h : pm.injective = true) : pm.e ≠ pm.bl := by
  have hn := injective_ne h
  simp only [PinMap.indices, List.nodup_cons, List.mem_cons, not_or] at hn
  tauto

/-- Settles O37: the only byte SETBL can issue has the E bit of `shadow`. -/
theorem setblMakesNoEdge : Obligations.SetblMakesNoEdge := by
  unfold Obligations.SetblMakesNoEdge
  intro s t b hinj h
  have he : bitAt (backlightByte b s) s.cfg.pinMap.e = bitAt s.shadow s.cfg.pinMap.e :=
    bitAt_backlightByte_other (e_ne_bl_of_injective hinj) b
  rcases execSetbl_trace_cases h with ⟨htrace, hshadow⟩ | ⟨f, htrace, hshadow⟩
  · exact ⟨by rw [hshadow], [], by simpa using htrace, rfl⟩
  · exact ⟨by rw [hshadow, he], _, htrace, latchEdges_write_same_e he f⟩

/-! ### The nibble and byte transactions (R100, R101, R110) -/

/-- R92, R94: the E bit of a composed byte. -/
theorem bitAt_portByte_e {c : Config} (h : c.pinMap.injective = true) (bl : Bool) (d : Nibble) (rs rw e : Bool) :
    bitAt (portByte c bl d rs rw e) c.pinMap.e = e :=
  bitAt_encodePins_e _ _ h

theorem lastWritten_txTrace (c : Config) (bl : Bool) (d : Nibble) (rs : Bool) (prev : Byte) :
    lastWritten prev (txTrace c bl d rs) = portByte c bl d rs false false := rfl

/-- R101, R156: a nibble transaction latches its nibble once, and once more before it if E was left high. -/
theorem latchEdges_txTrace {c : Config} (h : c.pinMap.injective = true) (bl : Bool) (d : Nibble) (rs : Bool)
    (prev : Byte) :
    latchEdges c.pinMap prev (txTrace c bl d rs) =
      (if bitAt prev c.pinMap.e then [{ rs := rs, rw := false, d := d }] else []) ++
        [{ rs := rs, rw := false, d := d }] := by
  simp [txTrace, latchEdges_write, portByte, bitAt_encodePins_e, bitAt_encodePins_rs, bitAt_encodePins_rw,
    dataNibble_encodePins, h]

/-- R110: a byte transaction that starts with E low latches the two nibbles of its byte, high first. -/
theorem latchEdges_txByteTrace {c : Config} (h : c.pinMap.injective = true) (bl : Bool) (b : Byte) (rs : Bool)
    {prev : Byte} (hp : bitAt prev c.pinMap.e = false) :
    latchEdges c.pinMap prev (txByteTrace c bl b rs) =
      [{ rs := rs, rw := false, d := highNibble b }, { rs := rs, rw := false, d := lowNibble b }] := by
  simp [txByteTrace, latchEdges_append, latchEdges_txTrace h, lastWritten_txTrace, bitAt_portByte_e h, hp]

/-- R80: a byte is the join of its two nibbles. -/
theorem joinNibbles_highNibble_lowNibble (b : Byte) : joinNibbles (highNibble b) (lowNibble b) = b :=
  (BitVec.extractLsb'_append_extractLsb'_eq_extractLsb' (start₁ := 0) (start₂ := 4) rfl).trans
    BitVec.extractLsb'_eq_self

/-! ### The commands that only write, when every write answers `Ok` -/

/-- R109: WNIB. -/
theorem execWnib_ok (rs : Bool) (n : Nibble) {s : State} (hr : s.rstIn = none) (ho : opsOk s 3) :
    exec (.wnib rs n) s =
      .next (completed s .ok 0 (txTrace s.cfg s.bl n rs) (portByte s.cfg s.bl n rs false false) 3) := by
  simp [exec, execWnib, finish, txNibble_ok n rs s hr ho, closeCommand_advance, hr]

/-- R123: a sync in `FIXED` mode is one wait. -/
theorem sync_fixed_ok (long : Bool) {s : State} (hr : s.rstIn = none) (hm : s.cfg.syncMode = .fixed) :
    sync long s = .run 0 (logged s [.d (execTime long s.cfg)] 0) := by
  simp [sync, hm, wait_ok, hr]

/-- R113, R114: a byte transaction and its sync in `FIXED` mode, to the response. -/
theorem txByte_sync_fixed_ok (b : Byte) (rs long : Bool) {s : State} (hr : s.rstIn = none)
    (hm : s.cfg.syncMode = .fixed) (ho : opsOk s 6) :
    finish (andThen (txByte b rs s) fun _ s => sync long s) =
      .next (completed s .ok 0 (txByteTrace s.cfg s.bl b rs ++ [.d (execTime long s.cfg)])
        (portByte s.cfg s.bl (lowNibble b) rs false false) 6) := by
  simp [finish, txByte_ok b rs s hr ho, sync_fixed_ok, closeCommand_advance, hr, hm]

/-- R115: the trace of an INIT that succeeds. -/
def initTrace (c : Config) (bl : Bool) : List Event :=
  [.d c.tInit0] ++ txTrace c bl c.fs8 false ++ [.d c.tInit1] ++ txTrace c bl c.fs8 false
    ++ [.d c.tInit2] ++ txTrace c bl c.fs8 false ++ [.d c.tInit3] ++ txTrace c bl c.fs4 false ++ [.d c.tExecShort]

/-- R115: INIT. -/
theorem execInit_ok {s : State} (hr : s.rstIn = none) (ho : opsOk s 12) :
    exec .init s =
      .next (completed s .ok 0 (initTrace s.cfg s.bl) (portByte s.cfg s.bl s.cfg.fs4 false false false) 12) := by
  have h0 : ∀ es, opsOk (logged s es 0) 3 := fun es =>
    opsOk_of_shift (n := 0) (opsOk_mono ho (by omega)) (replyAt_logged s es 0)
  have hn : ∀ n es l, n + 3 ≤ 12 → opsOk (advance s es l n) 3 := fun n es l h => opsOk_advance (opsOk_mono ho h)
  simp [exec, execInit, finish, wait_ok, txNibble_ok, hr, h0, hn, initTrace, closeCommand_advance]

/-- R115: INIT that starts with E low latches FS8 three times and FS4 once. -/
theorem latchEdges_initTrace {c : Config} (h : c.pinMap.injective = true) (bl : Bool) {prev : Byte}
    (hp : bitAt prev c.pinMap.e = false) :
    latchEdges c.pinMap prev (initTrace c bl) =
      [{ rs := false, rw := false, d := c.fs8 }, { rs := false, rw := false, d := c.fs8 },
       { rs := false, rw := false, d := c.fs8 }, { rs := false, rw := false, d := c.fs4 }] := by
  simp [initTrace, latchEdges_append, latchEdges_txTrace h, lastWritten_txTrace, bitAt_portByte_e h, hp]

/-- Settles O44: the exact trace of each command, and the edges that trace makes. -/
theorem latchedNibbles : Obligations.LatchedNibbles := by
  unfold Obligations.LatchedNibbles
  intro s hr hinj he
  refine ⟨?wnib, ?wcmd, ?wdata, ?init⟩
  case wnib =>
    intro rs n ho
    exact ⟨_, _, execWnib_ok rs n hr ho, rfl, by simp [latchEdges_txTrace hinj, he]⟩
  case wcmd =>
    intro lw b hm ho
    exact ⟨_, _, _, _, txByte_sync_fixed_ok b false lw hr hm ho, rfl, joinNibbles_highNibble_lowNibble b,
      (latchEdges_append_wait _ _ _ _).trans (latchEdges_txByteTrace hinj s.bl b false he)⟩
  case wdata =>
    intro b hm ho
    exact ⟨_, _, _, _, txByte_sync_fixed_ok b true false hr hm ho, rfl, joinNibbles_highNibble_lowNibble b,
      (latchEdges_append_wait _ _ _ _).trans (latchEdges_txByteTrace hinj s.bl b true he)⟩
  case init =>
    intro ho
    exact ⟨_, _, execInit_ok hr ho, rfl, latchEdges_initTrace hinj s.bl he⟩

end Sys2Proof.Machine
end

section
/-! PROOFS of the statements about the encoding (30_encoding.md): the command word and its decoder, the port byte and the
nibbles, illegal words, the facade's words, and the bits of a read byte that no register sees. -/

namespace Sys2Proof

/-! ### The fields of a word (R66 to R70) -/

theorem toNat_append_add {m n : Nat} (x : BitVec m) (y : BitVec n) :
    (x ++ y).toNat = 2 ^ n * x.toNat + y.toNat := by
  rw [BitVec.toNat_append, ← Nat.shiftLeft_add_eq_or_of_lt y.isLt, Nat.shiftLeft_eq, Nat.mul_comm]

theorem toNat_getLsbD {n : Nat} (x : BitVec n) (i : Nat) : (x.getLsbD i).toNat = x.toNat / 2 ^ i % 2 :=
  Nat.toNat_testBit x.toNat i

theorem toNat_extractLsb' {n : Nat} (i k : Nat) (x : BitVec n) :
    (x.extractLsb' i k).toNat = x.toNat / 2 ^ i % 2 ^ k := by
  rw [BitVec.extractLsb'_toNat, Nat.shiftRight_eq_div_pow]

theorem bool_eq_of_toNat_eq {a b : Bool} (h : a.toNat = b.toNat) : a = b := by
  cases a <;> cases b <;> simp at h ⊢

/-- R70: the number of a word, from its fields. -/
theorem toNat_pack (f : Fields) :
    (pack f).toNat = f.op.toNat * 0x1000 + f.rs.toNat * 0x800 + f.lw.toNat * 0x400 + f.b.toNat * 0x200
      + f.r.toNat * 0x100 + f.val.toNat := by
  refine (toNat_append_add _ f.val).trans ?_
  simp only [toNat_append_add, BitVec.toNat_ofBool]
  omega

@[simp] theorem pack_fieldsOf (w : CmdWord) : pack (fieldsOf w) = w := by
  apply BitVec.eq_of_toNat_eq
  simp only [toNat_pack, fieldsOf, toNat_getLsbD, toNat_extractLsb']
  omega

@[simp] theorem fieldsOf_pack (f : Fields) : fieldsOf (pack f) = f := by
  obtain ⟨op, rs, lw, b, r, val⟩ := f
  have hrs := rs.toNat_lt
  have hlw := lw.toNat_lt
  have hb := b.toNat_lt
  have hr := r.toNat_lt
  simp only [fieldsOf, Fields.mk.injEq]
  refine ⟨BitVec.eq_of_toNat_eq ?_, bool_eq_of_toNat_eq ?_, bool_eq_of_toNat_eq ?_, bool_eq_of_toNat_eq ?_,
    bool_eq_of_toNat_eq ?_, BitVec.eq_of_toNat_eq ?_⟩ <;>
  · simp only [toNat_getLsbD, toNat_extractLsb', toNat_pack, Nat.reducePow]
    omega

/-- A word is determined by its fields. -/
theorem fieldsOf_inj {v w : CmdWord} : fieldsOf v = fieldsOf w ↔ v = w :=
  ⟨fun h => by rw [← pack_fieldsOf v, h, pack_fieldsOf], congrArg fieldsOf⟩

@[simp] theorem fieldsOf_encode (i : Instr) : fieldsOf (encode i) = fields i :=
  fieldsOf_pack (fields i)

/-- A mask acts on each field. -/
theorem fieldsOf_and (w m : CmdWord) :
    fieldsOf (w &&& m) =
      { op := (fieldsOf w).op &&& (fieldsOf m).op
        rs := (fieldsOf w).rs && (fieldsOf m).rs
        lw := (fieldsOf w).lw && (fieldsOf m).lw
        b := (fieldsOf w).b && (fieldsOf m).b
        r := (fieldsOf w).r && (fieldsOf m).r
        val := (fieldsOf w).val &&& (fieldsOf m).val } := by
  simp [fieldsOf, BitVec.extractLsb'_and]

/-- R71: the nibble operand is the low half of `val`. -/
theorem nibbleOperand_eq (w : CmdWord) : nibbleOperand w = (fieldsOf w).val.setWidth 4 := by
  apply BitVec.eq_of_toNat_eq
  simp only [nibbleOperand, fieldsOf, toNat_extractLsb', BitVec.toNat_setWidth]
  omega

/-- A byte with no high nibble is a nibble, zero-extended (R71). -/
theorem setWidth_setWidth_of_ushiftRight_eq_zero {v : Byte} (h : v >>> 4 = 0#8) : (v.setWidth 4).setWidth 8 = v := by
  have hv : v.toNat / 2 ^ 4 = 0 := by
    rw [← Nat.shiftRight_eq_div_pow, ← BitVec.toNat_ushiftRight, h, BitVec.toNat_zero]
  apply BitVec.eq_of_toNat_eq
  simp only [BitVec.toNat_setWidth]
  omega

/-- WNIB's mask and R70's test of `val` look at the same bits. -/
theorem ushiftRight_eq_zero_of_and_eq_zero {v : Byte} (h : v &&& 0xF0#8 = 0#8) : v >>> 4 = 0#8 := by
  revert v
  decide

/-! ### The rows of the opcode table (R74) -/

theorem rowFits_iff (row : OpRow) (w : CmdWord) : rowFits row w = true ↔ w &&& row.mask = row.value := by
  rw [rowFits, beq_iff_eq]

/-- The command of the row of `i` with the operands of the word `w` (R71, R72). -/
def withOperands (i : Instr) (w : CmdWord) : Instr :=
  match i with
  | .wnib _ _ => .wnib (fieldsOf w).rs (nibbleOperand w)
  | .wcmd _ _ => .wcmd (fieldsOf w).lw (fieldsOf w).val
  | .wdata _ => .wdata (fieldsOf w).val
  | .rstat => .rstat
  | .rdata => .rdata
  | .poll => .poll
  | .setbl _ => .setbl (fieldsOf w).b
  | .init => .init

/-- R86: the inversion of the decoder: it answers a command of a row that fits, with the operands of the word. -/
theorem rowFits_of_decode {w : CmdWord} {i : Instr} (h : decode w = some i) :
    rowFits (rowOf i) w = true ∧ withOperands i w = i := by
  unfold decode at h
  split_ifs at h <;> cases h <;> exact ⟨by assumption, rfl⟩

/-- R70, R74: a word that fits the row of a command has the field values of that command, with the word's operands. -/
theorem fieldsOf_of_rowFits {i : Instr} {w : CmdWord} (h : rowFits (rowOf i) w = true) :
    fieldsOf w = fields (withOperands i w) := by
  have hop : ∀ x : BitVec 4, x &&& 15#4 = x := fun x => BitVec.and_allOnes
  have hval : ∀ x : BitVec 8, x &&& 255#8 = x := fun x => BitVec.and_allOnes
  rw [rowFits_iff, ← fieldsOf_inj, fieldsOf_and] at h
  cases i <;> simp only [withOperands, fields, nibbleOperand_eq] <;> generalize fieldsOf w = f at h ⊢ <;>
    obtain ⟨op, rs, lw, b, r, val⟩ := f
  case wnib =>
    simp [rowOf, rowWnib, fieldsOf, hop] at h
    obtain ⟨-, -, -, -, hval⟩ := id h
    simp [h, setWidth_setWidth_of_ushiftRight_eq_zero (ushiftRight_eq_zero_of_and_eq_zero hval)]
  all_goals
    simp [rowOf, rowWcmd, rowWdata, rowRstat, rowRdata, rowPoll, rowSetbl, rowInit, fieldsOf, hop, hval] at h
    simp [h]

/-- Every command fits its own row and the format table. -/
theorem rowFit (i : Instr) : Laws.RowFit.Statement i := by
  cases i with
  | wnib rs n => exact Laws.RowFit.wnib rs n
  | wcmd lw b => exact Laws.RowFit.wcmd lw b
  | wdata b => exact Laws.RowFit.wdata b
  | rstat => exact Laws.RowFit.rstat
  | rdata => exact Laws.RowFit.rdata
  | poll => exact Laws.RowFit.poll
  | setbl b => exact Laws.RowFit.setbl b
  | init => exact Laws.RowFit.init

/-- R74: no word fits two rows: the value of a row, seen through the mask of another, is not the other's. -/
theorem row_eq_of_rowFits {p q : OpRow} {w : CmdWord} (hp : p ∈ opRows) (hq : q ∈ opRows)
    (hpw : rowFits p w = true) (hqw : rowFits q w = true) : p = q := by
  have hrows : ∀ p ∈ opRows, ∀ q ∈ opRows, p.value &&& q.mask = q.value &&& p.mask → p = q := by decide
  refine hrows p hp q hq ?_
  rw [rowFits_iff] at hpw hqw
  rw [← hpw, ← hqw, BitVec.and_assoc, BitVec.and_assoc, BitVec.and_comm p.mask]

theorem rowOf_mem (i : Instr) : rowOf i ∈ opRows := by
  cases i <;> simp [rowOf, opRows]

/-- R86: a word that fits the row of a command decodes to that command, whatever the order of the rows. -/
theorem decode_of_rowFits {i : Instr} {w : CmdWord} (h : rowFits (rowOf i) w = true) :
    decode w = some (withOperands i w) := by
  have hfit : ∀ row ∈ opRows, rowFits row w = decide (row = rowOf i) := fun row hrow => by
    rw [Bool.eq_iff_iff, decide_eq_true_iff]
    exact ⟨fun hw => row_eq_of_rowFits hrow (rowOf_mem i) hw h, fun e => e ▸ h⟩
  simp only [opRows, List.forall_mem_cons] at hfit
  obtain ⟨hwnib, hwcmd, hwdata, hrstat, hrdata, hpoll, hsetbl, hinit, -⟩ := hfit
  rw [decode, hwnib, hwcmd, hwdata, hrstat, hrdata, hpoll, hsetbl, hinit]
  cases i <;> rfl

/-- R71, R72: the operands of the word of a command are those of the command. -/
theorem withOperands_encode (i : Instr) : withOperands i (encode i) = i := by
  cases i <;> simp [withOperands, nibbleOperand_eq, fields]

/-- Settles O1: the word of a command fits the command's own row, and a row that fits decides what is decoded. -/
theorem decodeOfEncode : Obligations.DecodeOfEncode := by
  unfold Obligations.DecodeOfEncode
  intro i
  obtain ⟨hfit, -⟩ := rowFit i
  rw [decode_of_rowFits hfit, withOperands_encode]

/-- The decoder, by fields: a word stands for a command exactly when it has the command's field values (R70, R86). -/
theorem decode_eq_some_iff {w : CmdWord} {i : Instr} : decode w = some i ↔ fieldsOf w = fields i := by
  constructor
  · intro h
    obtain ⟨hfit, hop⟩ := rowFits_of_decode h
    rw [fieldsOf_of_rowFits hfit, hop]
  · intro h
    rw [← fieldsOf_encode, fieldsOf_inj] at h
    exact h ▸ decodeOfEncode i

/-- Settles O2: the fields of the word are those of the command, and a word is packed from its fields. -/
theorem encodeOfDecode : Obligations.EncodeOfDecode := by
  unfold Obligations.EncodeOfDecode
  intro w i h
  rw [encode, ← decode_eq_some_iff.1 h, pack_fieldsOf]

/-- Settles O3, from what the masks of two rows have in common. -/
theorem opcodeRowsDisjoint : Obligations.OpcodeRowsDisjoint := by
  unfold Obligations.OpcodeRowsDisjoint
  exact fun w p q hp hq => row_eq_of_rowFits hp hq

/-! ### Legal words (R70, R74, R85) -/

/-- R70: the legal field values are those of some command. -/
theorem fields_of_legal {f : Fields} (h : f.legal = true) : ∃ i, f = fields i := by
  obtain ⟨op, rs, lw, b, r, val⟩ := f
  simp only [Fields.legal, Bool.and_eq_true, Bool.not_eq_true'] at h
  obtain ⟨rfl, h⟩ := h
  split at h
  next hop =>
    obtain rfl : op = 1#4 := BitVec.eq_of_toNat_eq hop
    simp only [Bool.and_eq_true, Bool.not_eq_true', beq_iff_eq] at h
    obtain ⟨⟨rfl, rfl⟩, hval⟩ := h
    exact ⟨.wnib rs (val.setWidth 4), by simp [fields, setWidth_setWidth_of_ushiftRight_eq_zero hval]⟩
  next hop =>
    obtain rfl : op = 2#4 := BitVec.eq_of_toNat_eq hop
    cases rs <;> simp at h
    · exact ⟨.wcmd lw val, by simp [fields, h]⟩
    · exact ⟨.wdata val, by simp [fields, h]⟩
  next hop =>
    obtain rfl : op = 3#4 := BitVec.eq_of_toNat_eq hop
    cases rs <;> simp at h
    · exact ⟨.rstat, by simp [fields, h]⟩
    · exact ⟨.rdata, by simp [fields, h]⟩
  next hop =>
    obtain rfl : op = 4#4 := BitVec.eq_of_toNat_eq hop
    simp at h
    exact ⟨.poll, by simp [fields, h]⟩
  next hop =>
    obtain rfl : op = 5#4 := BitVec.eq_of_toNat_eq hop
    simp at h
    exact ⟨.setbl b, by simp [fields, h]⟩
  next hop =>
    obtain rfl : op = 6#4 := BitVec.eq_of_toNat_eq hop
    simp at h
    exact ⟨.init, by simp [fields, h]⟩
  next => cases h

theorem decode_isSome_iff (w : CmdWord) : (decode w).isSome = true ↔ ∃ i, fieldsOf w = fields i := by
  simp only [Option.isSome_iff_exists, decode_eq_some_iff]

/-- R74, R70: the two forms of the rule, row by row and field by field, agree. -/
theorem decode_isSome (w : CmdWord) : (decode w).isSome = (fieldsOf w).legal := by
  rw [Bool.eq_iff_iff, decode_isSome_iff]
  constructor
  · rintro ⟨i, h⟩
    obtain ⟨-, hlegal⟩ := rowFit i
    rw [h, hlegal]
  · exact fields_of_legal

/-- Settles O4: both sides say that the fields are those of some command. -/
theorem legalWordsByFields : Obligations.LegalWordsByFields := decode_isSome

/-- The operands of a command: of WNIB, of WCMD, of WDATA, of SETBL; the other four commands have none. -/
abbrev Operands : Type := (Bool × Nibble) ⊕ (Bool × Byte) ⊕ Byte ⊕ Bool ⊕ Fin 4

/-- R70: a command is its row and its operands. -/
def instrEquiv : Instr ≃ Operands where
  toFun
    | .wnib rs n => .inl (rs, n)
    | .wcmd lw b => .inr (.inl (lw, b))
    | .wdata b => .inr (.inr (.inl b))
    | .setbl b => .inr (.inr (.inr (.inl b)))
    | .rstat => .inr (.inr (.inr (.inr 0)))
    | .rdata => .inr (.inr (.inr (.inr 1)))
    | .poll => .inr (.inr (.inr (.inr 2)))
    | .init => .inr (.inr (.inr (.inr 3)))
  invFun
    | .inl (rs, n) => .wnib rs n
    | .inr (.inl (lw, b)) => .wcmd lw b
    | .inr (.inr (.inl b)) => .wdata b
    | .inr (.inr (.inr (.inl b))) => .setbl b
    | .inr (.inr (.inr (.inr 0))) => .rstat
    | .inr (.inr (.inr (.inr 1))) => .rdata
    | .inr (.inr (.inr (.inr 2))) => .poll
    | .inr (.inr (.inr (.inr 3))) => .init
  left_inv i := by cases i <;> rfl
  right_inv o := by
    rcases o with ⟨rs, n⟩ | ⟨lw, b⟩ | b | b | k
    case inr.inr.inr.inr => fin_cases k <;> rfl
    all_goals rfl

/-- The legal words are the commands: the decoder and the encoder undo each other (O1, O2). -/
def legalWordEquiv : { w : CmdWord // (decode w).isSome = true } ≃ Instr where
  toFun w := (decode w.1).get w.2
  invFun i := ⟨encode i, by rw [decodeOfEncode i]; rfl⟩
  left_inv w := Subtype.ext (encodeOfDecode _ _ (Option.some_get w.2).symm)
  right_inv i := by simp [decodeOfEncode i]

theorem card_operands : Fintype.card Operands = 806 := by
  have hbyte : Fintype.card Byte = 256 := by rw [← FinEnum.card_eq_fintypeCard, FinEnum.card_bitVec]; norm_num
  have hnibble : Fintype.card Nibble = 16 := by rw [← FinEnum.card_eq_fintypeCard, FinEnum.card_bitVec]; norm_num
  simp [Operands, hbyte, hnibble]

/-- Settles O5: legal words are commands, and commands are counted by their operands, 32 + 512 + 256 + 2 + 4. -/
theorem legalWordCount : Obligations.LegalWordCount := by
  unfold Obligations.LegalWordCount
  rw [← Fintype.card_subtype, Fintype.card_congr (legalWordEquiv.trans instrEquiv), card_operands]

/-! ### Reserved opcodes, and words in numbers (R73, R83, R88, R89) -/

/-- R73, R83: the opcode of a command is one of 0x1 to 0x6. -/
theorem fields_op_bounds (i : Instr) : 1 ≤ (fields i).op.toNat ∧ (fields i).op.toNat ≤ 6 := by
  cases i <;> simp [fields]

/-- Settles O18: no command has a reserved opcode among its fields. -/
theorem reservedOpcodesIllegal : Obligations.ReservedOpcodesIllegal := by
  unfold Obligations.ReservedOpcodesIllegal
  intro w hop
  rw [Option.eq_none_iff_forall_ne_some]
  intro i h
  have hi := fields_op_bounds i
  rw [← decode_eq_some_iff.1 h] at hi
  rcases hop with h0 | h7
  · simp [h0] at hi
  · omega

/-- Settles O6, by running the decoder on each word. -/
theorem wordsOfTheTable : Obligations.WordsOfTheTable := by
  unfold Obligations.WordsOfTheTable
  decide

/-- R88: the number of the word of a command. -/
theorem toNat_encode (i : Instr) :
    (encode i).toNat = (fields i).op.toNat * 0x1000 + (fields i).rs.toNat * 0x800 + (fields i).lw.toNat * 0x400
      + (fields i).b.toNat * 0x200 + (fields i).r.toNat * 0x100 + (fields i).val.toNat :=
  toNat_pack (fields i)

theorem toNat_encode_wnib (rs : Bool) (n : Nibble) :
    (encode (.wnib rs n)).toNat = 0x1000 + rs.toNat * 2 ^ 11 + n.toNat := by
  have hn : n.toNat < 2 ^ 8 := by omega
  simpa [toNat_encode, fields] using hn

/-- Settles O7, from the number of a packed word. -/
theorem encodeExpressions : Obligations.EncodeExpressions := by
  unfold Obligations.EncodeExpressions
  refine ⟨toNat_encode_wnib, ?_, ?_, ?_, rfl, rfl, rfl, ?_, rfl⟩ <;> intro x <;> simp [toNat_encode, fields]

/-- Settles O56: the words of WCMD, SETBL and WNIB of O7, at the operands of R89. -/
theorem pseudoWords : Obligations.PseudoWords := by
  unfold Obligations.PseudoWords
  obtain ⟨hwnib, -, hlong, -⟩ := encodeExpressions
  exact ⟨hlong, rfl, rfl, fun n => by simpa [expandPseudo] using hwnib false n⟩

end Sys2Proof

namespace Sys2Proof.Machine

/-! ### The port byte and the nibbles (R75, R79, R80, R81) -/

/-- R75: the bits of the four data lines of a port byte. -/
theorem bitAt_encodePins_data {pm : PinMap} (h : pm.injective = true) (p : PinState) :
    bitAt (encodePins pm p) pm.d4 = p.d.getLsbD 0 ∧ bitAt (encodePins pm p) pm.d5 = p.d.getLsbD 1 ∧
    bitAt (encodePins pm p) pm.d6 = p.d.getLsbD 2 ∧ bitAt (encodePins pm p) pm.d7 = p.d.getLsbD 3 := by
  have hn := injective_ne h
  simp [PinMap.indices] at hn
  simp [encodePins, bitAt_setBitAt_other, hn]

theorem docMap_injective : docMap.injective = true := by decide

/-- R79: under `DOCMAP` the received nibble is `r[3:0]`. -/
theorem dataNibble_docMap (r : Byte) : dataNibble docMap r = r.setWidth 4 := by
  apply BitVec.eq_of_toNat_eq
  simp only [dataNibble, bitAt, docMap, toNat_append_add, BitVec.toNat_ofBool, toNat_getLsbD, BitVec.toNat_setWidth]
  simp only [Fin.isValue, Fin.coe_ofNat_eq_mod, Nat.reduceMod]
  omega

/-- R75: under `DOCMAP` a byte is the sum of its lines. -/
theorem toNat_eq_sum_docMap (v : Byte) :
    v.toNat = (bitAt v docMap.bl).toNat * 0x80 + (bitAt v docMap.e).toNat * 0x40 + (bitAt v docMap.rw).toNat * 0x20
      + (bitAt v docMap.rs).toNat * 0x10 + (dataNibble docMap v).toNat := by
  rw [dataNibble_docMap, BitVec.toNat_setWidth]
  simp only [bitAt, docMap, toNat_getLsbD]
  simp only [Fin.isValue, Fin.coe_ofNat_eq_mod, Nat.reduceMod]
  omega

/-- Settles O9. Under `DOCMAP` a byte is the sum of its lines, and each line has its bit. -/
theorem portByteBits : Obligations.PortByteBits := by
  unfold Obligations.PortByteBits
  refine ⟨?bits, ?docMap⟩
  case bits =>
    intro pm p h
    obtain ⟨h4, h5, h6, h7⟩ := bitAt_encodePins_data h p
    exact ⟨h4, h5, h6, h7, bitAt_encodePins_rs pm p h, bitAt_encodePins_rw pm p h, bitAt_encodePins_e pm p h,
      bitAt_encodePins_bl pm p⟩
  case docMap =>
    intro d rs rw e bl
    simp only [toNat_eq_sum_docMap, bitAt_encodePins_bl, bitAt_encodePins_e, bitAt_encodePins_rw, bitAt_encodePins_rs,
      dataNibble_encodePins, docMap_injective]

/-- Settles O10: the definition of the nibble names four bits and no other. -/
theorem readNibbleBits : Obligations.ReadNibbleBits := by
  unfold Obligations.ReadNibbleBits
  refine ⟨fun _ _ => rfl, ?_, dataNibble_docMap⟩
  intro pm r r' h4 h5 h6 h7
  rw [dataNibble, dataNibble, h4, h5, h6, h7]

/-- R80: the nibbles of a joined pair. -/
theorem highNibble_joinNibbles (hi lo : Nibble) : highNibble (joinNibbles hi lo) = hi :=
  BitVec.extractLsb'_append_eq_left

theorem lowNibble_joinNibbles (hi lo : Nibble) : lowNibble (joinNibbles hi lo) = lo :=
  BitVec.extractLsb'_append_eq_right

/-- Settles O11: the two nibbles are adjacent slices of the byte. -/
theorem nibbleRoundTrip : Obligations.NibbleRoundTrip := by
  unfold Obligations.NibbleRoundTrip
  exact ⟨joinNibbles_highNibble_lowNibble, fun hi lo => ⟨highNibble_joinNibbles hi lo, lowNibble_joinNibbles hi lo⟩⟩

theorem toNat_joinNibbles (hi lo : Nibble) : (joinNibbles hi lo).toNat = 16 * hi.toNat + lo.toNat :=
  toNat_append_add hi lo

/-- R81: the top bit of a joined byte. -/
theorem busyFlag_joinNibbles (hi lo : Nibble) : busyFlag (joinNibbles hi lo) = hi.getLsbD 3 := by
  apply bool_eq_of_toNat_eq
  rw [busyFlag, toNat_getLsbD, toNat_getLsbD, toNat_joinNibbles]
  omega

/-- R81: the seven bits below it. -/
theorem addressCounter_joinNibbles (hi lo : Nibble) :
    addressCounter (joinNibbles hi lo) = hi.setWidth 3 ++ lo := by
  apply BitVec.eq_of_toNat_eq
  rw [addressCounter, toNat_extractLsb', toNat_joinNibbles, toNat_append_add, BitVec.toNat_setWidth]
  omega

theorem toNat_eq_busyFlag_addressCounter (s : Byte) :
    s.toNat = (busyFlag s).toNat * 128 + (addressCounter s).toNat := by
  rw [busyFlag, addressCounter, toNat_getLsbD, toNat_extractLsb']
  omega

/-- Settles O12, in numbers: the joined byte is 16 times its high nibble plus its low one. -/
theorem statusByteFields : Obligations.StatusByteFields := by
  unfold Obligations.StatusByteFields
  exact fun hi lo =>
    ⟨busyFlag_joinNibbles hi lo, addressCounter_joinNibbles hi lo, toNat_eq_busyFlag_addressCounter⟩

/-! ### Illegal words (R83, R84) -/

theorem runWord_illegal {w : CmdWord} (h : decode w = none) (s : State) :
    runWord w s = .next (invalidParameter s) := by
  simp [runWord, h]

theorem decode_eq_none {w : CmdWord} (h : (fieldsOf w).legal = false) : decode w = none := by
  rw [← Option.not_isSome_iff_eq_none, decode_isSome, h]
  simp

/-- Settles O17: the word decodes to nothing (O4), so the engine answers it right after acceptance. -/
theorem illegalWordAnswered : Obligations.IllegalWordAnswered := by
  unfold Obligations.IllegalWordAnswered
  intro s w rest hh hl hq hw
  rw [step_issue hh, whenReady_idle hl hq, runWord_illegal (decode_eq_none hw), invalidParameter, raiseError,
    endCommand_presented (by simp)]
  simp [accept, hq]

/-! ### The facade (R90, R91) -/

/-- R90: the opcode bit lies above the address, so the two add up. -/
theorem toNat_cgramByte {a : Nat} (h : a < 64) : (cgramByte a).toNat = 0x40 + a := by
  rw [cgramByte, BitVec.toNat_or, BitVec.toNat_ofNat, Nat.mod_eq_of_lt (by omega)]
  exact (Nat.two_pow_add_eq_or_of_lt (i := 6) h 1).symm

theorem toNat_ddramByte {a : Nat} (h : a < 128) : (ddramByte a).toNat = 0x80 + a := by
  rw [ddramByte, BitVec.toNat_or, BitVec.toNat_ofNat, Nat.mod_eq_of_lt (by omega)]
  exact (Nat.two_pow_add_eq_or_of_lt (i := 7) h 1).symm

theorem facadeExpand_setCgramAddress (g : Geometry) (f : FacadeFlags) (a : Nat) :
    facadeExpand g f (.setCgramAddress a) = if a ≤ 63 then some (f, [.wcmd false (cgramByte a)]) else none := rfl

theorem cellAddress_outside {g : Geometry} {column row : Nat} (h : g.cols ≤ column ∨ g.rows ≤ row) :
    cellAddress g column row = none :=
  if_neg (by omega)

/-- Settles O57: the two checks, and the number of the CGRAM byte. -/
theorem facadeParameterChecks : Obligations.FacadeParameterChecks := by
  unfold Obligations.FacadeParameterChecks
  intro g f
  refine ⟨?refused, ?issued, ?outside⟩
  case refused =>
    intro a h
    rw [facadeExpand_setCgramAddress, if_neg (by omega)]
  case issued =>
    intro a h
    exact ⟨cgramByte a, by rw [facadeExpand_setCgramAddress, if_pos (by omega)], toNat_cgramByte h⟩
  case outside =>
    intro column row h
    simp [facadeExpand, cellAddress_outside h]

theorem facadeExpand_setCursorPos {g : Geometry} {column row a : Nat} (h : cellAddress g column row = some a)
    (f : FacadeFlags) : facadeExpand g f (.setCursorPos column row) = some (f, [.wcmd false (ddramByte a)]) := by
  simp [facadeExpand, h]

/-- R91: the row offsets of a display of 20 columns. -/
theorem rowOffset_20 {row : Nat} (h : row < 4) :
    rowOffset 20 row = some (if row = 0 then 0x00 else if row = 1 then 0x40 else if row = 2 then 0x14 else 0x54) := by
  interval_cases row <;> rfl

theorem cellAddress_of_rowOffset {g : Geometry} {column row o : Nat} (hc : column < g.cols) (hr : row < g.rows)
    (ho : rowOffset g.cols row = some o) (hlt : o + column < 128) : cellAddress g column row = some (o + column) := by
  simp [cellAddress, hc, hr, ho, hlt]

/-- Settles O58: every cell of the display has an address below 128. -/
theorem cursorPositionWords : Obligations.CursorPositionWords := by
  unfold Obligations.CursorPositionWords
  intro f column row hc hr
  have hlt : (if row = 0 then 0x00 else if row = 1 then 0x40 else if row = 2 then 0x14 else 0x54) + column < 128 := by
    split_ifs <;> omega
  have ha := cellAddress_of_rowOffset (g := { cols := 20, rows := 4 }) hc hr (rowOffset_20 hr) hlt
  exact ⟨_, facadeExpand_setCursorPos ha f, by rw [toNat_ddramByte hlt, Nat.add_assoc]⟩

/-! ### Two runs whose read bytes differ outside the data lines (R79) -/

/-- What `sameRegisters` leaves open: the trace, the record of the run and the answers in place. -/
theorem sameRegisters_iff {s t : State} :
    sameRegisters s t ↔ ∃ es xs rs, t = { s with trace := es, history := xs, replies := rs } := by
  constructor
  · intro h
    refine ⟨t.trace, t.history, t.replies, ?_⟩
    cases s
    cases t
    simpa [sameRegisters] using h
  · rintro ⟨es, xs, rs, rfl⟩
    simp [sameRegisters]

/-- What a function of the registers alone yields is the same in both states. -/
theorem sameRegisters.same {γ : Type} {s t : State} (h : sameRegisters s t) (view : State → γ)
    (hv : ∀ es xs rs, view { s with trace := es, history := xs, replies := rs } = view s) : view t = view s := by
  obtain ⟨es, xs, rs, rfl⟩ := sameRegisters_iff.1 h
  exact hv es xs rs

/-- Two answers that R79 does not tell apart are of one kind. -/
theorem sameAnswer_cases {pm : PinMap} {p q : BusReply} (h : sameAnswer pm p q) :
    (∃ a b, p = .ok a ∧ q = .ok b ∧ dataNibble pm a = dataNibble pm b) ∨ (∃ l, p = .err l ∧ q = .err l) ∨
      ∃ l, p = .never l ∧ q = .never l := by
  cases p <;> cases q <;> simp_all [sameAnswer]

/-- Two states that agree on every register, before the same answers of the bus but for what R79 ignores; `pm` is the
wiring both run under. -/
structure Twin (pm : PinMap) (s t : State) : Prop where
  regs : sameRegisters s t
  wiring : s.cfg.pinMap = pm
  answers : ∀ k, sameAnswer pm (replyAt s k) (replyAt t k)

/-- A write of registers: it neither sees nor changes the trace, the record or the answers, and keeps the configuration. -/
structure RegisterWrite (u : State → State) : Prop where
  cfg : ∀ s, (u s).cfg = s.cfg
  replyAt : ∀ s k, replyAt (u s) k = replyAt s k
  blind : ∀ s es xs rs,
    u { s with trace := es, history := xs, replies := rs } = { u s with trace := es, history := xs, replies := rs }

theorem Twin.write {pm : PinMap} {s t : State} (h : Twin pm s t) {u : State → State} (hu : RegisterWrite u) :
    Twin pm (u s) (u t) where
  regs := by
    obtain ⟨es, xs, rs, rfl⟩ := sameRegisters_iff.1 h.regs
    exact sameRegisters_iff.2 ⟨es, xs, rs, hu.blind s es xs rs⟩
  wiring := (congrArg Config.pinMap (hu.cfg s)).trans h.wiring
  answers k := by rw [hu.replyAt, hu.replyAt]; exact h.answers k

theorem setBl_write (b : Bool) : RegisterWrite (setBl b) := ⟨fun _ => rfl, fun _ _ => rfl, fun _ _ _ _ => rfl⟩
theorem setShadow_write (v : Byte) : RegisterWrite (setShadow v) := ⟨fun _ => rfl, fun _ _ => rfl, fun _ _ _ _ => rfl⟩
theorem setNibHi_write (n : Nibble) : RegisterWrite (setNibHi n) := ⟨fun _ => rfl, fun _ _ => rfl, fun _ _ _ _ => rfl⟩
theorem setNibLo_write (n : Nibble) : RegisterWrite (setNibLo n) := ⟨fun _ => rfl, fun _ _ => rfl, fun _ _ _ _ => rfl⟩
theorem setStat_write (b : Byte) : RegisterWrite (setStat b) := ⟨fun _ => rfl, fun _ _ => rfl, fun _ _ _ _ => rfl⟩
theorem setPcount_write (n : BitVec 16) : RegisterWrite (setPcount n) :=
  ⟨fun _ => rfl, fun _ _ => rfl, fun _ _ _ _ => rfl⟩
theorem rstIn_write (r : Option Nat) : RegisterWrite fun s => { s with rstIn := r } :=
  ⟨fun _ => rfl, fun _ _ => rfl, fun _ _ _ _ => rfl⟩
theorem latchIf_write (landed : Bool) (v : Byte) : RegisterWrite (latchIf landed v) := by
  cases landed <;> exact ⟨fun _ => rfl, fun _ _ => rfl, fun _ _ _ _ => rfl⟩

/-- The events may differ: a read byte stands in the trace as it came. -/
theorem Twin.logEvent {pm : PinMap} {s t : State} (h : Twin pm s t) (e e' : Event) :
    Twin pm (logEvent e s) (logEvent e' t) where
  regs := h.regs
  wiring := h.wiring
  answers := h.answers

theorem Twin.popReply {pm : PinMap} {s t : State} (h : Twin pm s t) : Twin pm (popReply s) (popReply t) where
  regs := by
    obtain ⟨es, xs, rs, rfl⟩ := sameRegisters_iff.1 h.regs
    exact sameRegisters_iff.2 ⟨es, xs, rs.tail, rfl⟩
  wiring := h.wiring
  answers k := by
    have hpop : ∀ u, replyAt (Machine.popReply u) k = replyAt u (1 + k) := fun u =>
      replyAt_of_drop u _ 1 k List.drop_one.symm rfl
    rw [hpop, hpop]
    exact h.answers (1 + k)

/-- R139: the response registers and the phase do not depend on the trace; the record is left open. -/
theorem endCommand_sameRegisters (code : RspCode) (data : Byte) {s t : State} (h : sameRegisters s t) :
    sameRegisters (endCommand code data s) (endCommand code data t) := by
  have hrst : t.rstIn = s.rstIn := h.same State.rstIn fun _ _ _ => rfl
  by_cases hr : s.rstIn = some 0
  · rwa [endCommand_some_zero hr, endCommand_some_zero (hrst.trans hr)]
  · rw [endCommand_presented hr, endCommand_presented (hrst ▸ hr)]
    obtain ⟨es, xs, rs, rfl⟩ := sameRegisters_iff.1 h
    exact sameRegisters_iff.2 ⟨_, _, _, rfl⟩

/-- The two flows go the same way, with related values, and leave states that agree. -/
def Agree {α : Type} (pm : PinMap) (rel : α → α → Prop) (f g : Flow α) : Prop :=
  match f, g with
  | .run a s, .run b t => rel a b ∧ Twin pm s t
  | .ended s, .ended t => sameRegisters s t
  | .run _ _, .ended _ => False
  | .ended _, .run _ _ => False

section
variable {pm : PinMap} {s t : State}

theorem Agree.andThen {α β : Type} {rel : α → α → Prop} {rel' : β → β → Prop} {f g : Flow α}
    {k l : α → State → Flow β} (hf : Agree pm rel f g)
    (hk : ∀ a b s t, rel a b → Twin pm s t → Agree pm rel' (k a s) (l b t)) :
    Agree pm rel' (andThen f k) (andThen g l) := by
  cases f with
  | run a s =>
    cases g with
    | run b t =>
      obtain ⟨hab, hst⟩ := hf
      exact hk a b s t hab hst
    | ended t => exact hf.elim
  | ended s =>
    cases g with
    | run b t => exact hf.elim
    | ended t => exact hf

/-- R58, for a statement whose value is the same in both runs. -/
theorem Agree.next {α β : Type} {rel : β → β → Prop} {f g : Flow α} {k l : α → State → Flow β}
    (hf : Agree pm Eq f g) (hk : ∀ a s t, Twin pm s t → Agree pm rel (k a s) (l a t)) :
    Agree pm rel (Machine.andThen f k) (Machine.andThen g l) :=
  hf.andThen fun a _ s t hab h => hab ▸ hk a s t h

theorem run_agree {α : Type} (a : α) (h : Twin pm s t) : Agree pm Eq (.run a s) (.run a t) := ⟨rfl, h⟩

theorem raiseError_agree {α : Type} {rel : α → α → Prop} (code : RspCode) (info : Byte) (h : Twin pm s t) :
    Agree pm rel (.ended (raiseError code info s)) (.ended (raiseError code info t)) :=
  endCommand_sameRegisters code info h.regs

theorem tick_agree (h : Twin pm s t) : Agree pm Eq (tick s) (tick t) := by
  have hr : t.rstIn = s.rstIn := h.regs.same State.rstIn fun _ _ _ => rfl
  unfold tick
  rw [hr]
  cases s.rstIn with
  | none => exact run_agree () h
  | some n =>
    cases n with
    | zero => exact h.regs
    | succ n => exact run_agree () (h.write (rstIn_write (some n)))

/-- R17: a wait for a time of the configuration. -/
theorem wait_agree (time : Config → Duration) (h : Twin pm s t) :
    Agree pm Eq (wait (time s.cfg) s) (wait (time t.cfg) t) := by
  have hcfg : t.cfg = s.cfg := h.regs.same State.cfg fun _ _ _ => rfl
  rw [hcfg]
  exact (tick_agree h).next fun _ _ _ h => run_agree () (h.logEvent _ _)

theorem portWrite_agree (v : Byte) (h : Twin pm s t) : Agree pm Eq (portWrite v s) (portWrite v t) := by
  refine (tick_agree h).next fun _ s t h => ?_
  have hw : ∀ landed failed, Twin pm
      (latchIf landed v (logEvent (.w v failed) (popReply (setShadow v s))))
      (latchIf landed v (logEvent (.w v failed) (popReply (setShadow v t)))) := fun landed failed =>
    ((h.write (setShadow_write v)).popReply.logEvent _ _).write (latchIf_write landed v)
  rcases sameAnswer_cases (h.answers 0) with ⟨a, b, hs, ht, -⟩ | ⟨l, hs, ht⟩ | ⟨l, hs, ht⟩ <;> simp only [hs, ht]
  · exact run_agree () (hw true false)
  · exact raiseError_agree .busError 0 (hw l true)
  · exact (hw l false).regs

/-- R79: the two bytes read agree on their data lines. -/
theorem portRead_agree (h : Twin pm s t) :
    Agree pm (fun a b => dataNibble pm a = dataNibble pm b) (portRead s) (portRead t) := by
  refine (tick_agree h).next fun _ s t h => ?_
  rcases sameAnswer_cases (h.answers 0) with ⟨a, b, hs, ht, hab⟩ | ⟨l, hs, ht⟩ | ⟨l, hs, ht⟩ <;> simp only [hs, ht]
  · exact ⟨hab, h.popReply.logEvent _ _⟩
  · exact raiseError_agree .busError 0 (h.popReply.logEvent _ _)
  · exact h.popReply.regs

/-- R94: the byte composed from the registers is the same in both runs. -/
theorem portWrite_port_agree (d : Nibble) (rs rw e : Bool) (h : Twin pm s t) :
    Agree pm Eq (portWrite (port d rs rw e s) s) (portWrite (port d rs rw e t) t) := by
  have hport : port d rs rw e t = port d rs rw e s := h.regs.same (port d rs rw e) fun _ _ _ => rfl
  rw [hport]
  exact portWrite_agree _ h

theorem txNibble_agree (d : Nibble) (rs : Bool) (h : Twin pm s t) : Agree pm Eq (txNibble d rs s) (txNibble d rs t) :=
  (portWrite_port_agree d rs false false h).next fun _ _ _ h => (wait_agree Config.tSetup h).next fun _ _ _ h =>
  (portWrite_port_agree d rs false true h).next fun _ _ _ h => (wait_agree Config.tPw h).next fun _ _ _ h =>
  (portWrite_port_agree d rs false false h).next fun _ _ _ h => wait_agree Config.tSettle h

/-- A nibble of the configuration (R115). -/
theorem txNibble_cfg_agree (d : Config → Nibble) (rs : Bool) (h : Twin pm s t) :
    Agree pm Eq (txNibble (d s.cfg) rs s) (txNibble (d t.cfg) rs t) := by
  rw [h.regs.same State.cfg fun _ _ _ => rfl]
  exact txNibble_agree _ rs h

theorem txByte_agree (b : Byte) (rs : Bool) (h : Twin pm s t) : Agree pm Eq (txByte b rs s) (txByte b rs t) :=
  (txNibble_agree _ rs h).next fun _ _ _ h => txNibble_agree _ rs h

theorem sampleAndFall_agree (rs : Bool) (h : Twin pm s t) :
    Agree pm (fun a b => dataNibble pm a = dataNibble pm b) (sampleAndFall rs s) (sampleAndFall rs t) := by
  have hcfg : t.cfg = s.cfg := h.regs.same State.cfg fun _ _ _ => rfl
  unfold sampleAndFall
  rw [hcfg]
  cases s.cfg.samplePoint with
  | eHigh => exact (portRead_agree h).andThen fun _ _ _ _ hab h =>
      (portWrite_port_agree 0xF rs true false h).next fun _ _ _ h => ⟨hab, h⟩
  | afterPulse => exact (portWrite_port_agree 0xF rs true false h).next fun _ _ _ h => portRead_agree h

/-- R79, R103: the nibble received is the same in both runs. -/
theorem rxNibble_agree (rs : Bool) (h : Twin pm s t) : Agree pm Eq (rxNibble rs s) (rxNibble rs t) :=
  (portWrite_port_agree 0xF rs true false h).next fun _ _ _ h => (wait_agree Config.tSetup h).next fun _ _ _ h =>
  (portWrite_port_agree 0xF rs true true h).next fun _ _ _ h => (wait_agree Config.tPw h).next fun _ _ _ h =>
  (sampleAndFall_agree rs h).andThen fun a b _ _ hab h => (wait_agree Config.tSettle h).next fun _ s t h => by
    have hcfg : t.cfg = s.cfg := h.regs.same State.cfg fun _ _ _ => rfl
    rw [hcfg, h.wiring, hab]
    exact run_agree _ h

theorem rxByte_agree (rs : Bool) (h : Twin pm s t) : Agree pm Eq (rxByte rs s) (rxByte rs t) :=
  (rxNibble_agree rs h).next fun hi _ _ h => (rxNibble_agree rs (h.write (setNibHi_write hi))).next fun lo s t h => by
    have hhi : t.nibHi = s.nibHi := h.regs.same State.nibHi fun _ _ _ => rfl
    rw [hhi]
    exact run_agree _ (h.write (setNibLo_write lo))

theorem statusRead_agree (h : Twin pm s t) : Agree pm Eq (statusRead s) (statusRead t) :=
  (rxByte_agree false h).next fun b _ _ h => run_agree b (h.write (setStat_write b))

theorem pollLoop_agree (k : Nat) {s t : State} (h : Twin pm s t) : Agree pm Eq (pollLoop k s) (pollLoop k t) := by
  induction k generalizing s t with
  | zero =>
    have hstat : t.stat = s.stat := h.regs.same State.stat fun _ _ _ => rfl
    simp only [pollLoop, hstat]
    exact raiseError_agree .timeout s.stat h
  | succ k ih =>
    refine (statusRead_agree h).next fun b s t h => ?_
    have hp : t.pcount = s.pcount := h.regs.same State.pcount fun _ _ _ => rfl
    rw [hp]
    replace h := h.write (setPcount_write (s.pcount + 1))
    have hbound := h.regs.same pollBoundReached fun _ _ _ => rfl
    simp only [hbound]
    split
    · split
      · exact raiseError_agree .timeout b h
      · exact (wait_agree Config.tPollGap h).next fun _ _ _ h => ih h
    · exact run_agree b h

theorem pollBusy_agree (h : Twin pm s t) : Agree pm Eq (pollBusy s) (pollBusy t) := by
  have hcfg : t.cfg = s.cfg := h.regs.same State.cfg fun _ _ _ => rfl
  unfold pollBusy
  rw [hcfg]
  exact pollLoop_agree _ (h.write (setPcount_write 0))

theorem sync_agree (long : Bool) (h : Twin pm s t) : Agree pm Eq (sync long s) (sync long t) := by
  have hcfg : t.cfg = s.cfg := h.regs.same State.cfg fun _ _ _ => rfl
  unfold sync
  rw [hcfg]
  cases s.cfg.syncMode with
  | fixed =>
    have hw := wait_agree (execTime long) h
    rw [hcfg] at hw
    exact hw.next fun _ _ _ h => run_agree 0 h
  | poll => exact pollBusy_agree h

theorem withReadPath_agree {f g : Flow Byte} (h : Twin pm s t) (hfg : Agree pm Eq f g) :
    Agree pm Eq (withReadPath s f) (withReadPath t g) := by
  have hcfg : t.cfg = s.cfg := h.regs.same State.cfg fun _ _ _ => rfl
  unfold withReadPath
  rw [hcfg]
  cases s.cfg.readPath with
  | present => exact hfg
  | absent => exact raiseError_agree .invalidParameter 0 h

/-- The response is a function of the registers and of the last value. -/
theorem Agree.close {f g : Flow Byte} (h : Agree pm Eq f g) : sameRegisters (closeCommand f) (closeCommand g) := by
  cases f with
  | run a s =>
    cases g with
    | run b t =>
      obtain ⟨rfl, hst⟩ := h
      exact endCommand_sameRegisters .ok a hst.regs
    | ended t => exact h.elim
  | ended s =>
    cases g with
    | run b t => exact h.elim
    | ended t => exact h

/-- R97: the byte SETBL issues is composed from `shadow`, which agrees. -/
theorem setbl_agree (b : Bool) (h : Twin pm s t) :
    Agree pm Eq (portWrite (backlightByte b s) (setBl b s)) (portWrite (backlightByte b t) (setBl b t)) := by
  rw [h.regs.same (backlightByte b) fun _ _ _ => rfl]
  exact portWrite_agree _ (h.write (setBl_write b))

/-- Every command, whatever the bus answers, leaves the same registers in both runs. -/
theorem exec_agree {i : Instr} {s' t' : State} (h : Twin pm s t) (hs : exec i s = .next s') (ht : exec i t = .next t') :
    sameRegisters s' t' := by
  cases i <;> cases hs <;> cases ht <;> apply Agree.close
  case wnib rs n => exact (txNibble_agree n rs h).next fun _ _ _ h => run_agree 0 h
  case wcmd lw b => exact (txByte_agree b false h).next fun _ _ _ h => sync_agree lw h
  case wdata b => exact (txByte_agree b true h).next fun _ _ _ h => sync_agree false h
  case rstat => exact withReadPath_agree h (statusRead_agree h)
  case rdata =>
    exact withReadPath_agree h ((rxByte_agree true h).next fun x _ _ h =>
      (sync_agree false h).next fun _ _ _ h => run_agree x h)
  case poll => exact withReadPath_agree h (pollBusy_agree h)
  case setbl b => exact (setbl_agree b h).next fun _ _ _ h => run_agree 0 h
  case init =>
    exact (wait_agree Config.tInit0 h).next fun _ _ _ h => (txNibble_cfg_agree Config.fs8 false h).next fun _ _ _ h =>
      (wait_agree Config.tInit1 h).next fun _ _ _ h => (txNibble_cfg_agree Config.fs8 false h).next fun _ _ _ h =>
      (wait_agree Config.tInit2 h).next fun _ _ _ h => (txNibble_cfg_agree Config.fs8 false h).next fun _ _ _ h =>
      (wait_agree Config.tInit3 h).next fun _ _ _ h => (txNibble_cfg_agree Config.fs4 false h).next fun _ _ _ h =>
      (wait_agree Config.tExecShort h).next fun _ _ _ h => run_agree 0 h

end

/-- Settles O30: the two runs start as twins, and every statement of a command keeps them so. -/
theorem otherReadBitsIgnored : Obligations.OtherReadBitsIgnored := by
  unfold Obligations.OtherReadBitsIgnored
  intro i s s' t t' hregs hanswers ht ht'
  exact exec_agree ⟨hregs, rfl, hanswers⟩ ht ht'

end Sys2Proof.Machine
end

section
/-! PROOFS of the statements about the port serializer (40_port_serializer.md): the port byte as a bijection, the
backlight flag in every byte written, and SETBL. -/

namespace Sys2Proof.Machine

/-! ### The port byte and its inverse (R92, R93) -/

/-- R79: the four bits of a received nibble are the bits of the four data lines. -/
theorem getLsbD_dataNibble (pm : PinMap) (v : Byte) :
    (dataNibble pm v).getLsbD 0 = bitAt v pm.d4 ∧ (dataNibble pm v).getLsbD 1 = bitAt v pm.d5 ∧
    (dataNibble pm v).getLsbD 2 = bitAt v pm.d6 ∧ (dataNibble pm v).getLsbD 3 = bitAt v pm.d7 := by
  unfold dataNibble
  generalize bitAt v pm.d4 = b4, bitAt v pm.d5 = b5, bitAt v pm.d6 = b6, bitAt v pm.d7 = b7
  revert b4 b5 b6 b7
  decide

/-- R8: eight distinct bit positions are all eight, so every bit of a port byte is that of some line. -/
theorem mem_indices_of_injective {pm : PinMap} (h : pm.injective = true) (i : Fin 8) : i ∈ pm.indices := by
  have hcard : pm.indices.toFinset.card = Fintype.card (Fin 8) := List.toFinset_card_of_nodup (injective_ne h)
  rw [← List.mem_toFinset, Finset.eq_univ_of_card _ hcard]
  exact Finset.mem_univ i

/-- R93: the pin state of the port byte of a pin state. -/
theorem decodePins_encodePins {pm : PinMap} (h : pm.injective = true) (p : PinState) :
    decodePins pm (encodePins pm p) = p := by
  rw [decodePins, dataNibble_encodePins pm p h, bitAt_encodePins_rs pm p h, bitAt_encodePins_rw pm p h,
    bitAt_encodePins_e pm p h, bitAt_encodePins_bl]

/-- R8, R93: the eight lines of a byte determine it. -/
theorem decodePins_injective {pm : PinMap} (h : pm.injective = true) : Function.Injective (decodePins pm) := by
  intro v w hvw
  simp only [decodePins, PinState.mk.injEq] at hvw
  obtain ⟨hd, hrs, hrw, he, hbl⟩ := hvw
  obtain ⟨v4, v5, v6, v7⟩ := getLsbD_dataNibble pm v
  obtain ⟨w4, w5, w6, w7⟩ := getLsbD_dataNibble pm w
  have hlines : ∀ i ∈ pm.indices, bitAt v i = bitAt w i := by
    simp [PinMap.indices, ← v4, ← v5, ← v6, ← v7, ← w4, ← w5, ← w6, ← w7, hd, hrs, hrw, he, hbl]
  exact byte_ext fun i => hlines i (mem_indices_of_injective h i)

/-- Settles O8: `decodePins` undoes `encodePins` line by line and is injective, so `encodePins` undoes it as well. -/
theorem portByteBijection : Obligations.PortByteBijection := by
  unfold Obligations.PortByteBijection
  intro pm h
  have hleft : Function.LeftInverse (decodePins pm) (encodePins pm) := decodePins_encodePins h
  exact ⟨hleft, hleft.rightInverse_of_injective (decodePins_injective h)⟩

/-! ### The backlight flag in every byte (R94, R97) -/

/-- Settles O26: every byte carries the flag the command's statements start from, and none of them changes it. -/
theorem everyWriteCarriesBacklight : Obligations.EveryWriteCarriesBacklight := by
  unfold Obligations.EveryWriteCarriesBacklight
  intro i s t h
  obtain ⟨es, he⟩ := exec_effect h
  have hbl : t.bl = (started i s).bl := he.bl
  rw [started_eq] at he
  exact ⟨es, he.trace, fun v f hw => (he.held v f hw).trans hbl.symm⟩

/-! ### SETBL (R97 to R99) -/

@[simp] theorem bitAt_xor (v w : Byte) (i : Fin 8) : bitAt (v ^^^ w) i = (bitAt v i ^^ bitAt w i) :=
  BitVec.getLsbD_xor

@[simp] theorem bitAt_twoPow (i j : Fin 8) : bitAt (BitVec.twoPow 8 i.val) j = decide (j = i) := by
  simp [bitAt, Fin.ext_iff, eq_comm]

/-- R10, R99: replacing one bit of a byte changes nothing, or that bit alone. -/
theorem setBitAt_xor (v : Byte) (i : Fin 8) (b : Bool) :
    setBitAt v i b ^^^ v = 0#8 ∨ setBitAt v i b ^^^ v = BitVec.twoPow 8 i.val := by
  by_cases hb : bitAt v i = b
  · left
    rw [← hb, setBitAt_bitAt, BitVec.xor_self]
  · right
    refine byte_ext fun j => ?_
    by_cases hj : j = i
    · subst hj
      simpa using Ne.symm hb
    · simp [bitAt_setBitAt_other _ _ _ _ hj, hj]

/-- Settles O36: the only byte SETBL can issue is `shadow` with its BL bit replaced. -/
theorem backlightIsolation : Obligations.BacklightIsolation := by
  unfold Obligations.BacklightIsolation
  intro s t b h
  rcases execSetbl_trace_cases h with ⟨htrace, -⟩ | ⟨f, htrace, -⟩
  · exact ⟨[], by simpa using htrace, by simp⟩
  · refine ⟨_, htrace, fun v f' hw => ?_⟩
    obtain ⟨rfl, -⟩ : v = backlightByte b s ∧ f' = f := by simpa using hw
    exact setBitAt_xor s.shadow s.cfg.pinMap.bl b

/-- Settles O34: the one write answers `Ok`, and the response ends the command. -/
theorem setblResult : Obligations.SetblResult := by
  unfold Obligations.SetblResult
  intro s b hr ho
  have hw := portWrite_ok (backlightByte b s) (setBl b s) hr (ho 0 Nat.one_pos)
  rw [exec, execSetbl, hw, andThen_run, finish, closeCommand_advance (setBl b s) _ _ _ _ hr]
  rfl

/-- R97, R106: SETBL whose write answers `Err`: the command ends at that write. -/
theorem execSetbl_err {s : State} {b landed : Bool} (hr : s.rstIn = none) (he : replyAt s 0 = .err landed) :
    exec (.setbl b) s = .next (endCommand .busError 0 (latchIf landed (backlightByte b s)
      (logEvent (.w (backlightByte b s) true) (popReply (setShadow (backlightByte b s) (setBl b s)))))) := by
  rw [exec, execSetbl, portWrite_err (backlightByte b s) (setBl b s) landed hr he]
  rfl

/-- Settles O35: the error response rolls nothing back, so bytes composed later carry the new flag. -/
theorem setblBusError : Obligations.SetblBusError := by
  unfold Obligations.SetblBusError
  intro s b landed hr he
  refine ⟨_, execSetbl_err hr he, ?_⟩
  rw [endCommand_presented (by simp [hr])]
  exact ⟨by simp, by simp [backlightByte], by simp [backlightByte], rfl, rfl, rfl,
    fun d rs rw e => (port_held d rs rw e _).trans (by simp)⟩

end Sys2Proof.Machine
end

section
/-! PROOFS of the statements about the nibble engine (41_nibble_engine.md): WNIB when its three writes succeed, and when
one of them fails. -/

namespace Sys2Proof.Machine

/-- Settles O32: the exact trace of the nibble transaction, and the OK response that ends it. -/
theorem wnibResult : Obligations.WnibResult := by
  unfold Obligations.WnibResult
  intro s rs n hr ho
  exact execWnib_ok rs n hr ho

/-! ### A port write that answers `Err` (R106, R139) -/

/-- The state in which a command ends when its write of `v`, issued in `s`, answers `Err`. -/
def failedWrite (landed : Bool) (v : Byte) (s : State) : State :=
  endCommand .busError 0 (latchIf landed v (logEvent (.w v true) (popReply (setShadow v s))))

theorem portWrite_failed {v : Byte} {s : State} {landed : Bool} (hr : s.rstIn = none) (he : replyAt s 0 = .err landed) :
    portWrite v s = .ended (failedWrite landed v s) :=
  portWrite_err v s landed hr he

/-- `portWrite_failed` after `n` bus operations that answered `Ok`. -/
theorem portWrite_advance_failed {v l : Byte} {s : State} {es : List Event} {n : Nat} {landed : Bool}
    (hr : s.rstIn = none) (he : replyAt s n = .err landed) :
    portWrite v (advance s es l n) = .ended (failedWrite landed v (advance s es l n)) :=
  portWrite_failed hr ((replyAt_advance s es l n 0).trans he)

@[simp] theorem failedWrite_shadow (landed : Bool) (v : Byte) (s : State) : (failedWrite landed v s).shadow = v := by
  simp [failedWrite]

@[simp] theorem failedWrite_trace (landed : Bool) (v : Byte) (s : State) :
    (failedWrite landed v s).trace = s.trace ++ [.w v true] := by
  simp [failedWrite]

/-- R39: the byte of a failed write is in the latch if it landed. -/
theorem readLatch_failedWrite (landed : Bool) (v : Byte) (s : State) :
    readLatch (failedWrite landed v s).mem s.cfg.i2cAddr =
      if landed then some v else readLatch s.mem s.cfg.i2cAddr := by
  obtain ⟨-, -, -, -, -, hmem, -⟩ := endCommand_keeps .busError 0
    (latchIf landed v (logEvent (.w v true) (popReply (setShadow v s))))
  rw [failedWrite, hmem, latchIf_mem]
  cases landed <;> simp

/-- R133: the response is BusError with data 0x00, and the engine is in `IDLE` again. -/
theorem failedWrite_response (landed : Bool) (v : Byte) {s : State} (hr : s.rstIn = none) :
    (failedWrite landed v s).rspCode = .busError ∧ (failedWrite landed v s).rspData = 0 ∧
      (failedWrite landed v s).seq = .idle := by
  rw [failedWrite, endCommand_presented (by simp [hr])]
  exact ⟨rfl, rfl, rfl⟩

/-! ### A nibble transaction one of whose writes answers `Err` (R100, R106) -/

/-- R100: the byte of write number `m` (from 0) of a nibble transaction: E is high in the middle one alone. -/
def txWrite (d : Nibble) (rs : Bool) (s : State) (m : Nat) : Byte :=
  portByte s.cfg s.bl d rs false (decide (m = 1))

/-- R100: the state in which a nibble transaction that starts in `s` issues its write number `m` (from 0). -/
def beforeTxWrite (d : Nibble) (rs : Bool) (s : State) : Nat → State
  | 0 => s
  | m + 1 => advance s ((txTrace s.cfg s.bl d rs).take (2 * (m + 1))) (txWrite d rs s m) (m + 1)

@[simp] theorem beforeTxWrite_cfg (d : Nibble) (rs : Bool) (s : State) (m : Nat) :
    (beforeTxWrite d rs s m).cfg = s.cfg := by
  cases m <;> rfl

@[simp] theorem beforeTxWrite_rstIn (d : Nibble) (rs : Bool) (s : State) (m : Nat) :
    (beforeTxWrite d rs s m).rstIn = s.rstIn := by
  cases m <;> rfl

/-- Each write is followed by one wait. -/
theorem beforeTxWrite_trace (d : Nibble) (rs : Bool) (s : State) (m : Nat) :
    (beforeTxWrite d rs s m).trace = s.trace ++ (txTrace s.cfg s.bl d rs).take (2 * m) := by
  cases m with
  | zero => simp [beforeTxWrite]
  | succ m => rfl

/-- R108: before write `m` the latch holds the byte of the write before it. -/
theorem readLatch_beforeTxWrite_succ (d : Nibble) (rs : Bool) (s : State) (m : Nat) :
    readLatch (beforeTxWrite d rs s (m + 1)).mem s.cfg.i2cAddr = some (txWrite d rs s m) :=
  readLatch_writeLatch_same _ _ _

/-- R106: a nibble transaction ends at its first write that answers `Err`. -/
theorem txNibble_err {d : Nibble} {rs : Bool} {s : State} {m : Nat} {landed : Bool} (hr : s.rstIn = none) (hm : m < 3)
    (ho : opsOk s m) (he : replyAt s m = .err landed) :
    txNibble d rs s = .ended (failedWrite landed (txWrite d rs s m) (beforeTxWrite d rs s m)) := by
  obtain rfl | rfl | rfl : m = 0 ∨ m = 1 ∨ m = 2 := by omega
  · simp [txNibble, portWrite_failed hr he, port_eq, beforeTxWrite, txWrite]
  · have h0 := ho 0 (by omega)
    simp [txNibble, portWrite_ok, wait_ok, hr, h0, portWrite_advance_failed hr he, port_eq, beforeTxWrite, txWrite,
      txTrace]
  · have h0 := ho 0 (by omega)
    have h1 := ho 1 (by omega)
    simp [txNibble, portWrite_ok, wait_ok, hr, h0, h1, portWrite_advance_failed hr he, port_eq, beforeTxWrite, txWrite,
      txTrace]

/-- R109, R106: WNIB ends where its nibble transaction does. -/
theorem execWnib_err {s : State} {rs : Bool} {n : Nibble} {m : Nat} {landed : Bool} (hr : s.rstIn = none) (hm : m < 3)
    (ho : opsOk s m) (he : replyAt s m = .err landed) :
    exec (.wnib rs n) s = .next (failedWrite landed (txWrite n rs s m) (beforeTxWrite n rs s m)) := by
  rw [exec, execWnib, txNibble_err hr hm ho he]
  rfl

/-- Settles O33: the failed write ends the command, and the latch before it holds what the write before it left. -/
theorem wnibBusError : Obligations.WnibBusError := by
  unfold Obligations.WnibBusError
  intro s rs n m landed hr hm ho he e0 e1 v before
  have hv : txWrite n rs s m = v := by
    by_cases h : m = 1 <;> simp [txWrite, v, e0, e1, h]
  have hbefore : readLatch (beforeTxWrite n rs s m).mem s.cfg.i2cAddr = before := by
    obtain rfl | rfl | rfl : m = 0 ∨ m = 1 ∨ m = 2 := by omega
    · rfl
    · exact readLatch_beforeTxWrite_succ n rs s 0
    · exact readLatch_beforeTxWrite_succ n rs s 1
  obtain ⟨hcode, hdata, hseq⟩ := failedWrite_response landed v ((beforeTxWrite_rstIn n rs s m).trans hr)
  have hlatch := readLatch_failedWrite landed v (beforeTxWrite n rs s m)
  rw [beforeTxWrite_cfg, hbefore] at hlatch
  refine ⟨_, hv ▸ execWnib_err hr hm ho he, failedWrite_shadow .., ?_, hcode, hdata, hseq, hlatch⟩
  rw [failedWrite_trace, beforeTxWrite_trace, List.append_assoc]

end Sys2Proof.Machine
end

section
/-! PROOFS of the statements about the instruction encoder (42_instruction_encoder.md): WCMD and WDATA in both
synchronization modes, INIT, and that INIT makes no port read. -/

namespace Sys2Proof.Machine

/-! ### WCMD and WDATA (R110, R113, R114) -/

/-- Settles O38: the byte transaction with RS = 0, and the wait of its class. -/
theorem wcmdFixedResult : Obligations.WcmdFixedResult := by
  unfold Obligations.WcmdFixedResult
  intro s lw b hr hm ho
  exact txByte_sync_fixed_ok b false lw hr hm ho

/-- Settles O39: the byte transaction with RS = 1, and the wait of the SHORT class. -/
theorem wdataFixedResult : Obligations.WdataFixedResult := by
  unfold Obligations.WdataFixedResult
  intro s b hr hm ho
  exact txByte_sync_fixed_ok b true false hr hm ho

/-- R123: a sync in `POLL` mode is the busy poll, whatever the class. -/
theorem sync_poll (long : Bool) {s : State} (hm : s.cfg.syncMode = .poll) : sync long s = pollBusy s := by
  simp only [sync, hm]

/-- R113, R114: in `POLL` mode a byte transaction whose six writes answer `Ok` leads to the poll. -/
theorem txByte_sync_poll (b : Byte) (rs long : Bool) {s : State} (hr : s.rstIn = none) (hm : s.cfg.syncMode = .poll)
    (ho : opsOk s 6) :
    (andThen (txByte b rs s) fun _ s => sync long s) =
      pollBusy (advance s (txByteTrace s.cfg s.bl b rs) (portByte s.cfg s.bl (lowNibble b) rs false false) 6) := by
  rw [txByte_ok b rs s hr ho, andThen_run]
  exact sync_poll long hm

/-- R113, R114, R125: a byte transaction and its sync in `POLL` mode, to the response of a poll that ends idle. -/
theorem txByte_sync_poll_idle (b : Byte) (rs long : Bool) {s : State} {k : Nat} (hr : s.rstIn = none)
    (hm : s.cfg.syncMode = .poll) (hi : pollIdleAt s 6 k) (ho : opsOk s (6 + 8 * k)) :
    finish (andThen (txByte b rs s) fun _ s => sync long s) =
      .next (completed (afterPoll s 6 k) .ok (pollByte s 6 (k - 1))
        (txByteTrace s.cfg s.bl b rs ++ pollTrace s 6 k) (portByte s.cfg s.bl 0xF false true false) (6 + 8 * k)) := by
  have hpoll := fun es l => pollBusy_idle (advance s es l 6) k hr (opsOk_advance ho) (pollIdleAt_advance hi)
  rw [txByte_sync_poll b rs long hr hm (opsOk_mono ho (Nat.le_add_right 6 _)), hpoll]
  simp [finish, afterPoll_advance, closeCommand_advance, hr]

/-- Settles O40: one argument for both commands, since the poll does not depend on RS or on the class. -/
theorem writePollResult : Obligations.WritePollResult := by
  unfold Obligations.WritePollResult
  intro s k hr hm hi ho
  exact ⟨fun lw b => txByte_sync_poll_idle b false lw hr hm hi ho,
    fun b => txByte_sync_poll_idle b true false hr hm hi ho⟩

/-! ### INIT (R115, R116) -/

/-- Settles O42: the waits and the four single nibbles, one after the other. -/
theorem initResult : Obligations.InitResult := by
  unfold Obligations.InitResult
  intro s hr ho
  exact execInit_ok hr ho

/-! ### What kind of events a command can make, whatever the bus answers (R18) -/

/-- From `s` to `t` the trace grew by events of the kind `p` alone. -/
def Emits (p : Event → Prop) (s t : State) : Prop :=
  ∃ es, t.trace = s.trace ++ es ∧ ∀ e ∈ es, p e

/-- The state a part of a command leaves, whether it ran to its end or went no further. -/
def flowState {α : Type} : Flow α → State
  | .run _ t => t
  | .ended t => t

section
variable {p : Event → Prop}

theorem emits_of_trace_eq {s t : State} (h : t.trace = s.trace) : Emits p s t :=
  ⟨[], by simpa using h, by simp⟩

theorem emits_of_one_event {s t : State} {e : Event} (h : t.trace = s.trace ++ [e]) (he : p e) : Emits p s t :=
  ⟨[e], h, by simpa using he⟩

theorem Emits.trans {s t u : State} (h : Emits p s t) (h' : Emits p t u) : Emits p s u := by
  obtain ⟨es, ht, hes⟩ := h
  obtain ⟨es', hu, hes'⟩ := h'
  exact ⟨es ++ es', by rw [hu, ht, List.append_assoc], List.forall_mem_append.2 ⟨hes, hes'⟩⟩

/-- R58: two statements one after the other. -/
theorem Emits.andThen {α β : Type} {s : State} {f : Flow α} {k : α → State → Flow β} (hf : Emits p s (flowState f))
    (hk : ∀ a t, Emits p t (flowState (k a t))) : Emits p s (flowState (Machine.andThen f k)) := by
  cases f with
  | run a t => exact hf.trans (hk a t)
  | ended t => exact hf

theorem Emits.run {α : Type} (a : α) (s : State) : Emits p s (flowState (.run a s)) :=
  emits_of_trace_eq rfl

/-- R16: the response is no event. -/
theorem Emits.close {s : State} {f : Flow Byte} (h : Emits p s (flowState f)) : Emits p s (closeCommand f) := by
  cases f with
  | run data t => exact h.trans (emits_of_trace_eq (endCommand_trace .ok data t))
  | ended t => exact h

/-- R150: the reset test is no event. -/
theorem tick_emits (s : State) : Emits p s (flowState (tick s)) := by
  unfold tick
  split <;> exact emits_of_trace_eq rfl

/-- R17: a wait is at most one event. -/
theorem wait_emits {t : Duration} (hp : p (.d t)) (s : State) : Emits p s (flowState (wait t s)) :=
  (tick_emits s).andThen fun _ _ => emits_of_one_event rfl hp

/-- R14: a port write is at most one event, failed or not. -/
theorem portWrite_emits {v : Byte} (hp : ∀ failed, p (.w v failed)) (s : State) :
    Emits p s (flowState (portWrite v s)) := by
  refine (tick_emits s).andThen fun _ s => ?_
  cases replyAt s 0 with
  | ok data => exact emits_of_one_event (by simp [flowState]) (hp false)
  | err landed => exact emits_of_one_event (by simp [flowState, raiseError]) (hp true)
  | never landed => exact emits_of_one_event (by simp [flowState]) (hp false)

/-- R100: a nibble transaction is made of waits and port writes. -/
theorem txNibble_emits (hd : ∀ t, p (.d t)) (hw : ∀ v failed, p (.w v failed)) (d : Nibble) (rs : Bool) (s : State) :
    Emits p s (flowState (txNibble d rs s)) :=
  (portWrite_emits (hw _) s).andThen fun _ s => (wait_emits (hd _) s).andThen fun _ s =>
  (portWrite_emits (hw _) s).andThen fun _ s => (wait_emits (hd _) s).andThen fun _ s =>
  (portWrite_emits (hw _) s).andThen fun _ s => wait_emits (hd _) s

/-- R115: INIT is made of waits and port writes. -/
theorem execInit_emits (hd : ∀ t, p (.d t)) (hw : ∀ v failed, p (.w v failed)) {s t : State}
    (h : exec .init s = .next t) : Emits p s t := by
  cases h
  have tx := txNibble_emits hd hw
  exact ((wait_emits (hd _) s).andThen fun _ s =>
    (tx s.cfg.fs8 false s).andThen fun _ s => (wait_emits (hd _) s).andThen fun _ s =>
    (tx s.cfg.fs8 false s).andThen fun _ s => (wait_emits (hd _) s).andThen fun _ s =>
    (tx s.cfg.fs8 false s).andThen fun _ s => (wait_emits (hd _) s).andThen fun _ s =>
    (tx s.cfg.fs4 false s).andThen fun _ s => (wait_emits (hd _) s).andThen fun _ s =>
    Emits.run (0 : Byte) s).close

end

/-- Settles O43: INIT is waits and port writes alone, and neither is a port read. -/
theorem initNeverPolls : Obligations.InitNeverPolls := by
  unfold Obligations.InitNeverPolls
  intro s t h
  exact execInit_emits (p := fun e => isRead e = false) (fun _ => rfl) (fun _ _ => rfl) h

end Sys2Proof.Machine
end

section
/-! PROOFS of the statements about synchronization and reads (43_sync_and_read.md): polls that stay busy, RSTAT, RDATA
and POLL with and without the read path, and what POLL writes whatever the bus answers. -/

namespace Sys2Proof.Machine

/-! ### The read path (R119) -/

theorem withReadPath_present {s : State} (hp : s.cfg.readPath = .present) (f : Flow Byte) : withReadPath s f = f := by
  simp only [withReadPath, hp]

theorem withReadPath_absent {s : State} (hp : s.cfg.readPath = .absent) (f : Flow Byte) :
    withReadPath s f = .ended (invalidParameter s) := by
  simp only [withReadPath, hp]

/-- Settles O55: none of the three commands reaches its first statement. -/
theorem readPathAbsent : Obligations.ReadPathAbsent := by
  unfold Obligations.ReadPathAbsent
  intro s i hr hp hi
  have hclosed : ∀ f, finish (withReadPath s f) = .next (endCommand .invalidParameter 0 s) := fun f => by
    rw [withReadPath_absent hp]
    rfl
  rw [← endCommand_presented (by simp [hr])]
  rcases hi with rfl | rfl | rfl <;> exact hclosed _

/-! ### RSTAT and RDATA in `FIXED` mode when every bus operation answers `Ok` (R120, R121, R123) -/

/-- Settles O47: the two receive cycles of a status read, and the OK response. -/
theorem rstatResult : Obligations.RstatResult := by
  unfold Obligations.RstatResult
  intro s hr hp ho hi lo
  rw [exec, execRstat, withReadPath_present hp, statusRead_ok s hr ho, finish, closeCommand_advance]
  · simp only [byteReadAt, byteReadTrace, cycleNibble, cycleRead, Nat.zero_add]
    rfl
  · exact hr

/-- R120: the read registers after the byte read of a command that starts in `s`. -/
def afterByteRead (s : State) : State :=
  setNibLo (cycleNibble s 4) (setNibHi (cycleNibble s 0) s)

/-- R129: RDATA whose byte read's eight bus operations answer `Ok` goes on to its sync, and keeps the byte for the
response. -/
theorem execRdata_ok {s : State} (hr : s.rstIn = none) (hp : s.cfg.readPath = .present) (ho : opsOk s 8) :
    exec .rdata s = finish (andThen
      (sync false (advance (afterByteRead s) (byteReadTrace s true 0) (portByte s.cfg s.bl 0xF true true false) 8))
      fun _ t => .run (byteReadAt s 0) t) := by
  rw [exec, execRdata, withReadPath_present hp, rxByte_ok true s hr ho, andThen_run]
  rfl

/-- Settles O49: the two receive cycles of a byte read, one wait, and the OK response. -/
theorem rdataFixedResult : Obligations.RdataFixedResult := by
  unfold Obligations.RdataFixedResult
  intro s hr hp hm ho hi lo
  have hsync : ∀ es l, sync false (advance (afterByteRead s) es l 8) =
      .run 0 (advance (afterByteRead s) (es ++ [.d s.cfg.tExecShort]) l 8) := fun es l => by
    rw [sync_fixed_ok (s := advance (afterByteRead s) es l 8) false hr hm, logged_advance]
    rfl
  rw [execRdata_ok hr hp ho, hsync, andThen_run, finish, closeCommand_advance (afterByteRead s) _ _ _ _ hr]
  simp only [afterByteRead, byteReadAt, byteReadTrace, cycleNibble, cycleRead, Nat.zero_add]
  rfl

/-! ### The poll after `n` bus operations that answered `Ok` (R125, R126) -/

/-- R33: a legal configuration allows at least one status read. -/
theorem nPollMax_pos {c : Config} (h : c.legal = true) : 0 < c.nPollMax.toNat := by
  obtain ⟨-, hn, -, -⟩ := (config_legal_iff c).1 h
  exact Nat.pos_of_ne_zero fun h0 => hn (BitVec.eq_of_toNat_eq h0)

/-- R125: a poll after `n` bus operations of the command, idle for the first time at status read `k`. -/
theorem pollBusy_advance_idle {s : State} {es : List Event} {l : Byte} {n k : Nat} (hr : s.rstIn = none)
    (hi : pollIdleAt s n k) (ho : opsOk s (n + 8 * k)) :
    pollBusy (advance s es l n) = .run (pollByte s n (k - 1))
      (advance (afterPoll s n k) (es ++ pollTrace s n k) (portByte s.cfg s.bl 0xF false true false) (n + 8 * k)) := by
  rw [pollBusy_idle (advance s es l n) k hr (opsOk_advance ho) (pollIdleAt_advance hi), afterPoll_advance]
  simp

/-- R126, R134: a poll that stays busy, to the Timeout response. -/
theorem pollBusy_busy {s : State} (hr : s.rstIn = none) (hn : 0 < s.cfg.nPollMax.toNat) (hb : pollAlwaysBusy s 0)
    (ho : opsOk s (8 * s.cfg.nPollMax.toNat)) :
    pollBusy s = .ended (completed (afterPoll s 0 s.cfg.nPollMax.toNat) .timeout
      (pollByte s 0 (s.cfg.nPollMax.toNat - 1)) (pollTrace s 0 s.cfg.nPollMax.toNat)
      (portByte s.cfg s.bl 0xF false true false) (8 * s.cfg.nPollMax.toNat)) := by
  rw [pollBusy_timeout s hr hn ho hb, raiseError]
  exact congrArg Flow.ended (endCommand_advance _ _ _ _ _ _ hr)

theorem completed_advance (s : State) (code : RspCode) (data : Byte) (es es' : List Event) (l l' : Byte) (n n' : Nat) :
    completed (advance s es l n) code data es' l' n' = completed s code data (es ++ es') l' (n + n') := by
  simp [completed, advance, List.drop_drop, Nat.add_assoc]

/-- `pollBusy_busy` after `n` bus operations of the command. -/
theorem pollBusy_advance_busy {s : State} {es : List Event} {l : Byte} {n : Nat} (hr : s.rstIn = none)
    (hl : s.cfg.legal = true) (hb : pollAlwaysBusy s n) (ho : opsOk s (n + 8 * s.cfg.nPollMax.toNat)) :
    pollBusy (advance s es l n) = .ended (completed (afterPoll s n s.cfg.nPollMax.toNat) .timeout
      (pollByte s n (s.cfg.nPollMax.toNat - 1)) (es ++ pollTrace s n s.cfg.nPollMax.toNat)
      (portByte s.cfg s.bl 0xF false true false) (n + 8 * s.cfg.nPollMax.toNat)) := by
  rw [pollBusy_busy (s := advance s es l n) hr (nPollMax_pos hl) (pollAlwaysBusy_advance hb)
    (opsOk_advance ho), afterPoll_advance, completed_advance]
  simp

/-! ### WCMD and WDATA whose poll stays busy (R126, R134) -/

/-- R113, R114, R126: a byte transaction and its sync in `POLL` mode, to the response of a poll that stays busy. -/
theorem txByte_sync_poll_busy (b : Byte) (rs long : Bool) {s : State} (hr : s.rstIn = none) (hl : s.cfg.legal = true)
    (hm : s.cfg.syncMode = .poll) (hb : pollAlwaysBusy s 6) (ho : opsOk s (6 + 8 * s.cfg.nPollMax.toNat)) :
    finish (andThen (txByte b rs s) fun _ s => sync long s) =
      .next (completed (afterPoll s 6 s.cfg.nPollMax.toNat) .timeout (pollByte s 6 (s.cfg.nPollMax.toNat - 1))
        (txByteTrace s.cfg s.bl b rs ++ pollTrace s 6 s.cfg.nPollMax.toNat)
        (portByte s.cfg s.bl 0xF false true false) (6 + 8 * s.cfg.nPollMax.toNat)) := by
  rw [txByte_sync_poll b rs long hr hm (opsOk_mono ho (Nat.le_add_right 6 _)), pollBusy_advance_busy hr hl hb ho]
  rfl

/-- Settles O41: one argument for both commands, since the poll does not depend on RS or on the class. -/
theorem writePollTimeout : Obligations.WritePollTimeout := by
  unfold Obligations.WritePollTimeout
  intro s hr hl hm hb ho k
  exact ⟨fun lw b => txByte_sync_poll_busy b false lw hr hl hm hb ho,
    fun b => txByte_sync_poll_busy b true false hr hl hm hb ho⟩

/-! ### RDATA in `POLL` mode (R129) -/

/-- A poll does not see the nibbles a byte read has left. -/
theorem pollTrace_afterByteRead (s : State) (off k : Nat) : pollTrace (afterByteRead s) off k = pollTrace s off k := by
  induction k with
  | zero => rfl
  | succ k ih =>
    cases k with
    | zero => rfl
    | succ k => rw [pollTrace_succ, ih, pollTrace_succ]; rfl

/-- A poll overwrites the nibbles a byte read has left. -/
theorem afterPoll_afterByteRead (s : State) (off k : Nat) : afterPoll (afterByteRead s) off k = afterPoll s off k := rfl

/-- Settles O50: the byte read, the poll, and the OK response with the byte. -/
theorem rdataPollResult : Obligations.RdataPollResult := by
  unfold Obligations.RdataPollResult
  intro s k hr hp hm hi ho
  have hsync := fun es l => (sync_poll false (s := advance (afterByteRead s) es l 8) hm).trans
    (pollBusy_advance_idle hr hi ho)
  rw [execRdata_ok hr hp (opsOk_mono ho (Nat.le_add_right 8 _)), hsync, andThen_run,
    afterPoll_afterByteRead, pollTrace_afterByteRead, finish, closeCommand_advance (afterPoll s 8 k) _ _ _ _ hr]
  rfl

/-- Settles O51: the poll ends the command, so the byte read goes nowhere. -/
theorem rdataPollTimeout : Obligations.RdataPollTimeout := by
  unfold Obligations.RdataPollTimeout
  intro s hr hl hp hm hb ho k
  have hsync := fun es l => (sync_poll false (s := advance (afterByteRead s) es l 8) hm).trans
    (pollBusy_advance_busy hr hl hb ho)
  rw [execRdata_ok hr hp (opsOk_mono ho (Nat.le_add_right 8 _)), hsync, andThen_ended,
    afterPoll_afterByteRead, pollTrace_afterByteRead]
  rfl

/-! ### POLL (R130) -/

theorem execPoll_present {s : State} (hp : s.cfg.readPath = .present) : exec .poll s = finish (pollBusy s) := by
  rw [exec, execPoll, withReadPath_present hp]

/-- Settles O52: POLL is the poll alone, whatever the sync mode. -/
theorem pollResult : Obligations.PollResult := by
  unfold Obligations.PollResult
  intro s k hr hp hi ho
  rw [execPoll_present hp, pollBusy_idle s k hr ho hi, finish, closeCommand_advance (afterPoll s 0 k) _ _ _ _ hr]

/-- R37: the step takes a legal word in `IDLE`. -/
theorem step_issue_decoded {s : State} {w : CmdWord} {rest : List HostMove} {i : Instr} (hl : s.cfg.legal = true)
    (hq : s.seq = .idle) (hh : s.host = .issue w :: rest) (hd : decode w = some i) :
    step s = exec i (accept w none { s with host := rest }) := by
  rw [step_issue hh, whenReady_idle hl hq, runWord_decoded hd]

/-- Settles O53: the Timeout response leaves `IDLE`, and neither the configuration nor the host's moves changed. -/
theorem pollTimeout : Obligations.PollTimeout := by
  unfold Obligations.PollTimeout
  intro s hr hl hp hb ho k t
  constructor
  · rw [execPoll_present hp, pollBusy_busy hr (nPollMax_pos hl) hb ho]
    rfl
  · intro w rest i hh hd
    exact step_issue_decoded (s := t) hl rfl hh hd

/-! ### RSTAT, whatever the bus answers (R121) -/

/-- R120: the value of a byte read is the byte of the nibbles it left. -/
theorem rxByte_value {rs : Bool} {s u : State} {b : Byte} (h : rxByte rs s = .run b u) :
    b = joinNibbles u.nibHi u.nibLo := by
  unfold rxByte at h
  cases hhi : rxNibble rs s with
  | ended t => rw [hhi] at h; cases h
  | run hi t =>
    rw [hhi, andThen_run] at h
    cases hlo : rxNibble rs (setNibHi hi t) with
    | ended t' => rw [hlo] at h; cases h
    | run lo t' => rw [hlo] at h; cases h; rfl

/-- R121: a status read goes no further, with `stat` as it was, or writes the byte of the two nibbles to it. -/
theorem statusRead_cases (s : State) :
    (∃ u, statusRead s = .ended u ∧ u.stat = s.stat) ∨
      ∃ u, statusRead s = .run u.stat u ∧ u.stat = joinNibbles u.nibHi u.nibLo := by
  have hkeeps : Keeps statRegs s (rxByte false s) :=
    rxByte_keeps quiet_statRegs (fun _ _ => rfl) (fun _ _ => rfl) false s
  unfold statusRead
  cases h : rxByte false s with
  | ended u =>
    rw [h] at hkeeps
    exact .inl ⟨u, rfl, congrArg Prod.fst hkeeps⟩
  | run b u =>
    have hb : b = joinNibbles u.nibHi u.nibLo := rxByte_value h
    exact .inr ⟨setStat b u, rfl, hb⟩

/-- Statements that ran to their end with no reset pending leave none pending. -/
theorem Sat.run_rstIn {α : Type} {s t : State} {a : α} (h : Sat s (.run a t)) (hr : s.rstIn = none) :
    t.rstIn = none := by
  obtain ⟨es, he⟩ := h
  exact he.rstNone hr

/-- Settles O48: `stat` changes only where the status read runs to its end, and then OK is presented with it. -/
theorem statOnlyWhenWhole : Obligations.StatOnlyWhenWhole := by
  unfold Obligations.StatOnlyWhenWhole
  intro s t hr h hne
  cases h
  cases hp : s.cfg.readPath with
  | absent =>
    refine absurd ?_ hne
    rw [withReadPath_absent hp]
    exact congrArg Prod.fst (quiet_statRegs.finish .invalidParameter 0 s)
  | present =>
    rw [withReadPath_present hp] at hne ⊢
    rcases statusRead_cases s with ⟨u, hf, hstat⟩ | ⟨u, hf, hstat⟩
    · rw [hf] at hne
      exact absurd hstat hne
    · have hu : u.rstIn = none := Sat.run_rstIn (hf ▸ statusRead_sat s) hr
      rw [hf, closeCommand, respond, endCommand_presented (by simp [hu])]
      exact ⟨rfl, rfl, hstat⟩

/-! ### What a poll writes, whatever the bus answers and whenever a reset comes (R131) -/

/-- The values that the bytes a command composes are made of besides its operands (R94). -/
def portRegs (s : State) : Config × Bool := (s.cfg, s.bl)

theorem quiet_portRegs : Quiet portRegs where
  rst _ _ := rfl
  log _ _ := rfl
  pop _ := rfl
  shadow _ _ := rfl
  latch b v s := by cases b <;> rfl
  finish c d s := by
    obtain ⟨hbl, -, -, hcfg, -⟩ := endCommand_keeps c d s
    simp [portRegs, hbl, hcfg]

/-- R103: if the event is a write, its byte is one of the two of an RS = 0 receive cycle. -/
def ReceiveEvent (regs : Config × Bool) (e : Event) : Prop :=
  ∀ v f, e = .w v f →
    v = portByte regs.1 regs.2 0xF false true false ∨ v = portByte regs.1 regs.2 0xF false true true

theorem receiveEvent_of_not_write {e : Event} (he : isWrite e = false) (regs : Config × Bool) :
    ReceiveEvent regs e := by
  rintro v f rfl
  cases he

/-- From `s` to `t` nothing but the writes of receive cycles went to the expander, and what they are made of is kept. -/
structure Receives (s t : State) : Prop where
  regs : portRegs t = portRegs s
  emits : Emits (ReceiveEvent (portRegs s)) s t

theorem Receives.trans {s t u : State} (h : Receives s t) (h' : Receives t u) : Receives s u where
  regs := h'.regs.trans h.regs
  emits := h.emits.trans (h.regs ▸ h'.emits)

/-- R58: two statements one after the other. -/
theorem Receives.andThen {α β : Type} {s : State} {f : Flow α} {k : α → State → Flow β}
    (hf : Receives s (flowState f)) (hk : ∀ a t, Receives t (flowState (k a t))) :
    Receives s (flowState (Machine.andThen f k)) := by
  cases f with
  | run a t => exact hf.trans (hk a t)
  | ended t => exact hf

/-- An operation of one event, by what it keeps and what it emits. -/
theorem Receives.of_keeps {α : Type} {s : State} {f : Flow α} (hk : Keeps portRegs s f)
    (he : Emits (ReceiveEvent (portRegs s)) s (flowState f)) : Receives s (flowState f) where
  regs := by cases f <;> exact hk
  emits := he

/-- A change of registers that no port byte is made of. -/
theorem receives_of_eq {s t : State} (hr : portRegs t = portRegs s) (ht : t.trace = s.trace) : Receives s t :=
  ⟨hr, emits_of_trace_eq ht⟩

theorem endCommand_receives (code : RspCode) (data : Byte) (s : State) : Receives s (endCommand code data s) :=
  receives_of_eq (quiet_portRegs.finish code data s) (endCommand_trace code data s)

/-- R14: a port read is at most one event, failed or not. -/
theorem portRead_emits {p : Event → Prop} (hp : ∀ v, p (.r v)) (hf : p .rFail) (s : State) :
    Emits p s (flowState (portRead s)) := by
  refine (tick_emits s).andThen fun _ s => ?_
  cases replyAt s 0 with
  | ok data => exact emits_of_one_event rfl (hp data)
  | err landed => exact emits_of_one_event (endCommand_trace .busError 0 _) hf
  | never landed => exact emits_of_trace_eq rfl

theorem wait_receives (t : Duration) (s : State) : Receives s (flowState (wait t s)) :=
  .of_keeps (wait_keeps quiet_portRegs t s) (wait_emits (receiveEvent_of_not_write rfl _) s)

theorem portRead_receives (s : State) : Receives s (flowState (portRead s)) :=
  .of_keeps (portRead_keeps quiet_portRegs s)
    (portRead_emits (fun _ => receiveEvent_of_not_write rfl _) (receiveEvent_of_not_write rfl _) s)

/-- R103: a write of a receive cycle, E low or high. -/
theorem portWrite_receives (e : Bool) (s : State) :
    Receives s (flowState (portWrite (port 0xF false true e s) s)) := by
  refine .of_keeps (portWrite_keeps quiet_portRegs _ s) (portWrite_emits (fun failed v f h => ?_) s)
  cases h
  cases e with
  | false => exact .inl rfl
  | true => exact .inr rfl

theorem run_receives {α : Type} (a : α) (s : State) : Receives s (flowState (.run a s)) := receives_of_eq rfl rfl

theorem sampleAndFall_receives (s : State) : Receives s (flowState (sampleAndFall false s)) := by
  unfold sampleAndFall
  cases s.cfg.samplePoint with
  | eHigh =>
    exact (portRead_receives s).andThen fun r s => (portWrite_receives false s).andThen fun _ s => run_receives r s
  | afterPulse => exact (portWrite_receives false s).andThen fun _ s => portRead_receives s

/-- R103. -/
theorem rxNibble_receives (s : State) : Receives s (flowState (rxNibble false s)) :=
  (portWrite_receives false s).andThen fun _ s => (wait_receives _ s).andThen fun _ s =>
  (portWrite_receives true s).andThen fun _ s => (wait_receives _ s).andThen fun _ s =>
  (sampleAndFall_receives s).andThen fun _ s => (wait_receives _ s).andThen fun _ s => run_receives _ s

/-- R120: a write to a read register is no port write. -/
theorem rxByte_receives (s : State) : Receives s (flowState (rxByte false s)) :=
  (rxNibble_receives s).andThen fun hi s =>
    have hset : Receives s (setNibHi hi s) := receives_of_eq rfl rfl
    Receives.andThen (hset.trans (rxNibble_receives (setNibHi hi s))) fun lo s =>
      receives_of_eq (t := setNibLo lo s) rfl rfl

/-- R121. -/
theorem statusRead_receives (s : State) : Receives s (flowState (statusRead s)) :=
  (rxByte_receives s).andThen fun b s => receives_of_eq (t := setStat b s) rfl rfl

/-- R125: the loop is status reads and waits. -/
theorem pollLoop_receives (k : Nat) : ∀ s : State, Receives s (flowState (pollLoop k s)) := by
  induction k with
  | zero => exact fun s => endCommand_receives .timeout s.stat s
  | succ k ih =>
    refine fun s => (statusRead_receives s).andThen fun b s => ?_
    have hcount : Receives s (setPcount (s.pcount + 1) s) := receives_of_eq rfl rfl
    refine hcount.trans ?_
    dsimp only
    split_ifs
    · exact endCommand_receives .timeout b _
    · exact (wait_receives _ _).andThen fun _ s => ih s
    · exact run_receives b _

theorem pollBusy_receives (s : State) : Receives s (flowState (pollBusy s)) :=
  have hset : Receives s (setPcount 0 s) := receives_of_eq rfl rfl
  hset.trans (pollLoop_receives _ _)

theorem withReadPath_receives {s : State} {f : Flow Byte} (h : Receives s (flowState f)) :
    Receives s (flowState (withReadPath s f)) := by
  unfold withReadPath
  split
  · exact h
  · exact endCommand_receives .invalidParameter 0 s

/-- Settles O54: every statement of a poll is a write of a receive cycle or no write at all. -/
theorem pollWritesReceiveBytes : Obligations.PollWritesReceiveBytes := by
  unfold Obligations.PollWritesReceiveBytes
  intro s t h
  cases h
  obtain ⟨es, htrace, hes⟩ := (withReadPath_receives (pollBusy_receives s)).emits.close
  exact ⟨es, htrace, fun v f hw => hes _ hw v f rfl⟩

end Sys2Proof.Machine
end

section
/-! PROOFS of the statements about exceptions (60_exceptions.md): every command that ends presents exactly one response,
and the one other way is a bus operation that never returns. -/

namespace Sys2Proof.Machine

/-- R132, R139, R164: with no reset pending, what a command's statements led to is closed by a response that fits their
events, or left as it stands by a bus operation that never returned. -/
theorem Finished.answered_or_never {s t : State} {es : List Event} (h : Finished s t es) (hr : s.rstIn = none) :
    (∃ u code data, Did s u es ∧ t = endCommand code data u ∧ preciseTrace code es = true ∧
      responseWf code data = true) ∨
    (Did s t es ∧ (∀ e ∈ es, isFailed e = false) ∧
      ∃ n landed, replyAt s n = .never landed ∧ t.busCount = s.busCount + (n + 1)) := by
  cases h with
  | ended h =>
    cases h with
    | reset h hreset => simp [h.rstNone hr] at hreset
    | never h ok n landed hn count => exact .inr ⟨h, ok, n, landed, hn, count⟩
    | bus u h pre e he ok hf _ ht =>
      subst he
      exact .inl ⟨u, .busError, 0, h, ht, preciseTrace_busError ok hf, rfl⟩
    | timeout u h data hb ht =>
      exact .inl ⟨u, .timeout, data, h.toDid, ht, preciseTrace_of_none_failed h.ok (by simp) (by simp), hb⟩
  | ok u h data ht =>
    exact .inl ⟨u, .ok, data, h.toDid, ht, preciseTrace_of_none_failed h.ok (by simp) (by simp), rfl⟩
  | invalid he ht =>
    subst he
    exact .inl ⟨s, .invalidParameter, 0, Did.refl s, ht, rfl, rfl⟩

/-- Settles O25, from the two ways a command can finish with no reset pending: SETBL's write to `bl` touches neither the
record nor the bus. -/
theorem oneResponsePerCommand : Obligations.OneResponsePerCommand := by
  unfold Obligations.OneResponsePerCommand
  intro i s hr
  obtain ⟨t, es, hexec, hf⟩ := exec_finished i s
  rw [started_eq] at hf
  refine ⟨t, es, hexec, hf.effect.trace, ?_⟩
  rcases hf.answered_or_never hr with ⟨u, code, data, hd, rfl, hes, hwf⟩ | ⟨hd, hok, hnever⟩
  · have hu : u.rstIn ≠ some 0 := by simp [hd.rstNone hr]
    rw [endCommand_presented hu]
    exact .inl ⟨code, data, rfl, rfl, rfl, by rw [hd.history, hd.cmd]; rfl, hes, hwf⟩
  · exact .inr ⟨hd.rspCode, hd.rspData, hd.seq, hd.history, hok, hnever⟩

end Sys2Proof.Machine
end

section
/-! PROOFS of the statements about reset and hazards (70_reset_and_hazards.md): waiting, a reset during a command, a
transfer that starts with E high, the least time of WCMD, and the bus operations each command makes. -/

namespace Sys2Proof.Machine

/-! ### Waiting and a reset during a command (R150, R151) -/

theorem step_no_move {s : State} (h : s.host = []) : step s = whenReady s (.next s) := by
  simp [step, h]

/-- Settles O20: with no move a step is the test of the configuration and of the phase alone. -/
theorem idleWaits : Obligations.IdleWaits := by
  unfold Obligations.IdleWaits
  intro s hh hl hq
  rw [step_no_move hh, whenReady_idle hl hq]

theorem step_issueReset {s : State} {w : CmdWord} {n : Nat} {c : Config} {rest : List HostMove}
    (h : s.host = .issueReset w n c :: rest) :
    step s = whenReady s (thenReset c (runWord w (accept w (some n) { s with host := rest }))) := by
  simp [step, h]

/-- R150, R151: a reset in `t` would leave one exchange on record for the command that started in `s` and made the
events `es`, with a response only if the reset, due after `n` events, had not come. -/
def RecordedBefore (n : Nat) (s t : State) (es : List Event) : Prop :=
  ∃ rsp, abandoned t = s.history ++ [{ word := s.cmd, trace := es, rsp := rsp }] ∧ (rsp ≠ none → es.length < n)

section
variable {s t u : State} {es : List Event} {n : Nat}

/-- R150: a command that has presented no response is abandoned. -/
theorem Did.recordedBefore (h : Did s u es) (hq : s.seq = .busy) (ht : s.trace = []) : RecordedBefore n s u es := by
  have htrace : u.trace = es := by simpa [ht] using h.trace
  refine ⟨none, ?_, fun hne => absurd rfl hne⟩
  rw [abandoned_eq, if_pos (h.seq.trans hq), h.history, h.cmd, htrace]

/-- R151: a response is presented only if the reset is more events away than the command made. -/
theorem Did.recordedBefore_endCommand (h : Did s u es) (hq : s.seq = .busy) (ht : s.trace = [])
    (hu : u.rstIn = some (n - es.length)) (code : RspCode) (data : Byte) :
    RecordedBefore n s (endCommand code data u) es := by
  by_cases hn : n - es.length = 0
  · rw [endCommand_some_zero (hn ▸ hu)]
    exact h.recordedBefore hq ht
  · have htrace : u.trace = es := by simpa [ht] using h.trace
    rw [endCommand_presented (by simp [hu, hn])]
    exact ⟨some ⟨code, data⟩, by simp [abandoned_eq, h.history, h.cmd, htrace], fun _ => by omega⟩

/-- R150, R151: with a reset due after `n` events a command makes no more than those, however it finishes. -/
theorem Finished.recordedBefore (h : Finished s t es) (hq : s.seq = .busy) (ht : s.trace = [])
    (hr : s.rstIn = some n) : es.length ≤ n ∧ RecordedBefore n s t es := by
  cases h with
  | ended h =>
    cases h with
    | reset h _ => exact ⟨h.rstSome n hr, h.toDid.recordedBefore hq ht⟩
    | never h => exact ⟨h.rstSome n hr, h.recordedBefore hq ht⟩
    | bus u h _ _ _ _ _ rst hend =>
      subst hend
      exact ⟨h.rstSome n hr, h.recordedBefore_endCommand hq ht (rst n hr) _ _⟩
    | timeout u h data _ hend =>
      subst hend
      exact ⟨h.rstSome n hr, h.toDid.recordedBefore_endCommand hq ht (h.rstLeft n hr) _ _⟩
  | ok u h data hend =>
    subst hend
    exact ⟨h.rstSome n hr, h.toDid.recordedBefore_endCommand hq ht (h.rstLeft n hr) _ _⟩
  | invalid hes hend =>
    subst hes hend
    exact ⟨Nat.zero_le n, (Did.refl s).recordedBefore_endCommand hq ht hr _ _⟩

end

/-- Settles O15: the reset gives every register its value whatever the word led to, and the record is that of the
finished command. -/
theorem resetDuringCommand : Obligations.ResetDuringCommand := by
  unfold Obligations.ResetDuringCommand
  intro s w n c rest hh hl hq hc
  obtain ⟨u, es, b, hrun, hf⟩ := runWord_finished w (accept w (some n) { s with host := rest })
  obtain ⟨hlen, rsp, hrec, hrsp⟩ := hf.recordedBefore rfl rfl rfl
  have hstep : step s = .next (resetNow c u) := by
    rw [step_issueReset hh, whenReady_idle hl hq, hrun]
    exact doReset_legal hc u
  exact ⟨_, _, hstep, rfl, rfl, rfl, rfl, rfl, rfl, rfl, rfl, rfl, rfl, hf.effect.host, rfl, hrec, rfl, hlen, hrsp⟩

/-! ### A transfer that starts with E high (R156) -/

/-- Settles O45: the first write of the nibble transaction is itself an edge, with the same lines as the pulse. -/
theorem enableLeftHigh : Obligations.EnableLeftHigh := by
  unfold Obligations.EnableLeftHigh
  intro s rs n hr hinj he ho
  exact ⟨_, _, execWnib_ok rs n hr ho, rfl, by simp [latchEdges_txTrace hinj, he]⟩

/-! ### The least time of WCMD (R167) -/

theorem minimumTime_append (es es' : List Event) : minimumTime (es ++ es') = minimumTime es + minimumTime es' := by
  induction es with
  | nil => simp [minimumTime]
  | cons e es ih => cases e <;> simp [minimumTime, ih, Nat.add_assoc]

/-- R100: the three waits of a nibble transaction. -/
theorem minimumTime_txTrace (c : Config) (bl : Bool) (d : Nibble) (rs : Bool) :
    minimumTime (txTrace c bl d rs) = c.tSetup + c.tPw + c.tSettle := by
  simp [txTrace, minimumTime, Nat.add_assoc]

theorem minimumTime_txByteTrace (c : Config) (bl : Bool) (b : Byte) (rs : Bool) :
    minimumTime (txByteTrace c bl b rs) = 2 * (c.tSetup + c.tPw + c.tSettle) := by
  rw [txByteTrace, minimumTime_append, minimumTime_txTrace, minimumTime_txTrace, Nat.two_mul]

/-- Settles O46: two nibble transactions, and the wait of the class. -/
theorem wcmdLeastTime : Obligations.WcmdLeastTime := by
  unfold Obligations.WcmdLeastTime
  intro s lw b hr hm ho
  refine ⟨_, _, txByte_sync_fixed_ok b false lw hr hm ho, rfl, ?_⟩
  rw [minimumTime_append, minimumTime_txByteTrace]
  rfl

/-! ### The bus operations of a command that ends with OK (R165) -/

/-- If the part of a command runs to its end, what it leaves has the property. -/
def RunsTo {α : Type} (Q : State → Prop) (f : Flow α) : Prop :=
  match f with
  | .run _ t => Q t
  | .ended _ => True

theorem RunsTo.mono {α : Type} {Q R : State → Prop} {f : Flow α} (hf : RunsTo Q f) (h : ∀ t, Q t → R t) :
    RunsTo R f := by
  cases f with
  | run a t => exact h t hf
  | ended t => trivial

/-- R58: two statements one after the other. -/
theorem RunsTo.andThen {α β : Type} {Q R : State → Prop} {f : Flow α} {k : α → State → Flow β} (hf : RunsTo Q f)
    (hk : ∀ a t, Q t → RunsTo R (k a t)) : RunsTo R (andThen f k) := by
  cases f with
  | run a t => exact hk a t hf
  | ended t => trivial

/-- From `s` to `t` there were `w` port writes and `r` port reads; `pcount` and the configuration are unchanged. -/
structure Counted (w r : Nat) (s t : State) : Prop where
  counts : busCounts s t w r
  regs : pollRegs t = pollRegs s

theorem busCounts_of_trace_eq {s t : State} (h : t.trace = s.trace) : busCounts s t 0 0 :=
  ⟨[], by simpa using h, rfl, rfl⟩

theorem busCounts_of_one_event {s t : State} {e : Event} (h : t.trace = s.trace ++ [e]) :
    busCounts s t (writeCount [e]) (readCount [e]) :=
  ⟨[e], h, rfl, rfl⟩

theorem busCounts_trans {s t u : State} {w r w' r' : Nat} (h : busCounts s t w r) (h' : busCounts t u w' r') :
    busCounts s u (w + w') (r + r') := by
  obtain ⟨es, ht, rfl, rfl⟩ := h
  obtain ⟨es', hu, rfl, rfl⟩ := h'
  exact ⟨es ++ es', by rw [hu, ht, List.append_assoc], List.countP_append, List.countP_append⟩

theorem Counted.refl (s : State) : Counted 0 0 s s := ⟨busCounts_of_trace_eq rfl, rfl⟩

theorem Counted.trans {s t u : State} {w r w' r' : Nat} (h : Counted w r s t) (h' : Counted w' r' t u) :
    Counted (w + w') (r + r') s u :=
  ⟨busCounts_trans h.counts h'.counts, h'.regs.trans h.regs⟩

/-- R58: the counts of two statements add up. -/
theorem counted_andThen {α β : Type} {s : State} {w r w' r' : Nat} {f : Flow α} {k : α → State → Flow β}
    (hf : RunsTo (Counted w r s) f) (hk : ∀ a t, RunsTo (Counted w' r' t) (k a t)) :
    RunsTo (Counted (w + w') (r + r') s) (andThen f k) :=
  hf.andThen fun a t ht => (hk a t).mono fun _ hu => ht.trans hu

theorem tick_counted (s : State) : RunsTo (Counted 0 0 s) (tick s) := by
  unfold tick
  split
  · exact Counted.refl s
  · trivial
  · exact ⟨busCounts_of_trace_eq rfl, rfl⟩

/-- R150: the reset test before a statement counts nothing. -/
theorem counted_after_tick {α : Type} {s : State} {w r : Nat} {k : Unit → State → Flow α}
    (hk : ∀ a t, RunsTo (Counted w r t) (k a t)) : RunsTo (Counted w r s) (andThen (tick s) k) := by
  simpa using counted_andThen (tick_counted s) hk

theorem wait_counted (t : Duration) (s : State) : RunsTo (Counted 0 0 s) (wait t s) :=
  counted_after_tick fun _ _ => ⟨busCounts_of_one_event (e := .d t) rfl, rfl⟩

theorem portWrite_counted (v : Byte) (s : State) : RunsTo (Counted 1 0 s) (portWrite v s) := by
  refine counted_after_tick fun _ s => ?_
  cases replyAt s 0 with
  | ok data => exact ⟨busCounts_of_one_event (e := .w v false) (by simp), by simp [pollRegs]⟩
  | err landed => trivial
  | never landed => trivial

theorem portRead_counted (s : State) : RunsTo (Counted 0 1 s) (portRead s) := by
  refine counted_after_tick fun _ s => ?_
  cases replyAt s 0 with
  | ok data => exact ⟨busCounts_of_one_event (e := .r data) rfl, rfl⟩
  | err landed => trivial
  | never landed => trivial

theorem run_counted {α : Type} (a : α) (s : State) : RunsTo (Counted 0 0 s) (.run a s) := Counted.refl s

/-- R100: three writes. -/
theorem txNibble_counted (d : Nibble) (rs : Bool) (s : State) : RunsTo (Counted 3 0 s) (txNibble d rs s) :=
  counted_andThen (portWrite_counted _ s) fun _ s => counted_andThen (wait_counted _ s) fun _ s =>
  counted_andThen (portWrite_counted _ s) fun _ s => counted_andThen (wait_counted _ s) fun _ s =>
  counted_andThen (portWrite_counted _ s) fun _ s => wait_counted _ s

/-- R103, R104: the read comes before the last write or after it. -/
theorem sampleAndFall_counted (rs : Bool) (s : State) : RunsTo (Counted 1 1 s) (sampleAndFall rs s) := by
  unfold sampleAndFall
  cases s.cfg.samplePoint with
  | eHigh =>
    exact counted_andThen (portRead_counted s) fun r s => counted_andThen (portWrite_counted _ s) fun _ s =>
      run_counted r s
  | afterPulse => exact counted_andThen (portWrite_counted _ s) fun _ s => portRead_counted s

/-- R103: three writes and the read. -/
theorem rxNibble_counted (rs : Bool) (s : State) : RunsTo (Counted 3 1 s) (rxNibble rs s) :=
  counted_andThen (portWrite_counted _ s) fun _ s => counted_andThen (wait_counted _ s) fun _ s =>
  counted_andThen (portWrite_counted _ s) fun _ s => counted_andThen (wait_counted _ s) fun _ s =>
  counted_andThen (sampleAndFall_counted rs s) fun _ s => counted_andThen (wait_counted _ s) fun _ s => run_counted _ s

/-- R110: two nibble transactions. -/
theorem txByte_counted (b : Byte) (rs : Bool) (s : State) : RunsTo (Counted 6 0 s) (txByte b rs s) :=
  counted_andThen (txNibble_counted _ rs s) fun _ s => txNibble_counted _ rs s

/-- A change of registers counts nothing, unless it is of `pcount`. -/
theorem Counted.of_silent {w r : Nat} {s t u : State} (h : Counted w r s t) (htrace : u.trace = t.trace)
    (hregs : pollRegs u = pollRegs t) : Counted w r s u :=
  h.trans ⟨busCounts_of_trace_eq htrace, hregs⟩

/-- R120: two receive cycles. -/
theorem rxByte_counted (rs : Bool) (s : State) : RunsTo (Counted 6 2 s) (rxByte rs s) :=
  (rxNibble_counted rs s).andThen fun hi t ht =>
    have hset : Counted 3 1 s (setNibHi hi t) := ht.of_silent rfl rfl
    (rxNibble_counted rs (setNibHi hi t)).andThen fun lo u hu =>
      (hset.trans hu).of_silent (u := setNibLo lo u) rfl rfl

/-- R121: a byte read. -/
theorem statusRead_counted (s : State) : RunsTo (Counted 6 2 s) (statusRead s) :=
  (rxByte_counted false s).andThen fun b t ht => ht.of_silent (u := setStat b t) rfl rfl

/-! #### The poll and the sync (R123, R125, R168) -/

/-- R125: from `s` to `t` there were `k` status reads, at least one, each counted in `pcount`, within the bound. -/
structure Polled (k : Nat) (s t : State) : Prop where
  pos : 1 ≤ k
  pcount : t.pcount.toNat = s.pcount.toNat + k
  bound : t.pcount.toNat ≤ s.cfg.nPollMax.toNat
  counts : busCounts s t (6 * k) (2 * k)

/-- R125: one more status read before the loop goes on. -/
theorem Polled.next {s t u : State} {k : Nat} (hs : busCounts s t 6 2) (hp : t.pcount.toNat = s.pcount.toNat + 1)
    (hc : t.cfg = s.cfg) (h : Polled k t u) : Polled (k + 1) s u where
  pos := Nat.le_add_left 1 k
  pcount := by rw [h.pcount, hp]; omega
  bound := hc ▸ h.bound
  counts := by simpa [Nat.mul_add, Nat.add_comm] using busCounts_trans hs h.counts

/-- R125, R168: below the bound a status read is counted without going round. -/
theorem pollLoop_polled (fuel : Nat) : ∀ s : State, s.pcount.toNat < s.cfg.nPollMax.toNat →
    RunsTo (fun t => ∃ k, Polled k s t) (pollLoop fuel s) := by
  induction fuel with
  | zero => exact fun _ _ => trivial
  | succ fuel ih =>
    refine fun s hlt => (statusRead_counted s).andThen fun b t ⟨hcounts, hregs⟩ => ?_
    simp only [pollRegs, Prod.mk.injEq] at hregs
    obtain ⟨hp, hc⟩ := hregs
    have hN := s.cfg.nPollMax.isLt
    have hadd : (t.pcount + 1).toNat = s.pcount.toNat + 1 := by simp [hp]; omega
    dsimp only
    split_ifs with hbusy hbound
    · trivial
    · have hne : ¬ (t.pcount + 1).toNat = s.cfg.nPollMax.toNat := fun e =>
        hbound (by simpa [pollBoundReached, hc] using BitVec.eq_of_toNat_eq e)
      refine (wait_counted _ _).andThen fun _ u ⟨hwait, hregs⟩ => ?_
      simp only [pollRegs, Prod.mk.injEq, setPcount_pcount, setPcount_cfg] at hregs
      obtain ⟨hup, huc⟩ := hregs
      have hup : u.pcount.toNat = s.pcount.toNat + 1 := by rw [hup, hadd]
      have huc : u.cfg = s.cfg := huc.trans hc
      exact (ih u (by rw [hup, huc]; omega)).mono fun v ⟨k, hk⟩ =>
        ⟨k + 1, hk.next (busCounts_trans hcounts hwait) hup huc⟩
    · exact ⟨1, Nat.le_refl 1, hadd, by rw [setPcount_pcount, hadd]; omega, hcounts⟩

/-- R165: what a poll makes of the counts `w` and `r` of the statements before it, by the final `pcount`. -/
def PollCounts (w r : Nat) (s t : State) : Prop :=
  1 ≤ t.pcount.toNat ∧ t.pcount.toNat ≤ s.cfg.nPollMax.toNat ∧
    busCounts s t (w + 6 * t.pcount.toNat) (r + 2 * t.pcount.toNat)

/-- R125: a poll starts to count from 0. -/
theorem pollBusy_counts {w r : Nat} {s t : State} (hn : 0 < s.cfg.nPollMax.toNat) (h : Counted w r s t) :
    RunsTo (PollCounts w r s) (pollBusy t) := by
  obtain ⟨hcounts, hregs⟩ := h
  have hc : t.cfg = s.cfg := congrArg Prod.snd hregs
  refine (pollLoop_polled _ (setPcount 0 t) (by simpa [hc] using hn)).mono fun u ⟨k, hk⟩ => ?_
  obtain rfl : u.pcount.toNat = k := by simpa using hk.pcount
  exact ⟨hk.pos, hc ▸ hk.bound, busCounts_trans hcounts hk.counts⟩

/-- R165: what a sync makes of the counts of the statements before it. -/
def SyncCounts (w r : Nat) (s t : State) : Prop :=
  match s.cfg.syncMode with
  | .fixed => busCounts s t w r
  | .poll => PollCounts w r s t

/-- R123: a sync is one wait or one poll. -/
theorem sync_counts {w r : Nat} {s t : State} (hn : 0 < s.cfg.nPollMax.toNat) (long : Bool) (h : Counted w r s t) :
    RunsTo (SyncCounts w r s) (sync long t) := by
  have hc : t.cfg = s.cfg := congrArg Prod.snd h.regs
  unfold SyncCounts sync
  rw [hc]
  cases s.cfg.syncMode with
  | fixed => exact (wait_counted _ t).andThen fun _ u hu => (h.trans hu).counts
  | poll => exact pollBusy_counts hn h

/-! #### The commands that end with OK (R132) -/

/-- The command that started in `s` is on record in `t` with an OK response. -/
def EndedOk (s t : State) : Prop :=
  t.history = s.history ++ [{ word := s.cmd, trace := t.trace, rsp := some { code := .ok, data := t.rspData } }]

theorem not_endedOk_of_history_eq {s t : State} (h : t.history = s.history) : ¬ EndedOk s t := by
  simp [EndedOk, h]

/-- R139: an error response is no OK response. -/
theorem not_endedOk_of_error {s u : State} (h : u.history = s.history) {code : RspCode} (hc : code ≠ .ok)
    (data : Byte) : ¬ EndedOk s (endCommand code data u) := by
  by_cases hu : u.rstIn = some 0
  · rw [endCommand_some_zero hu]
    exact not_endedOk_of_history_eq h
  · rw [endCommand_presented hu]
    simp [EndedOk, h, hc]

/-- R139, R150, R164: a command that went no further did not end with OK. -/
theorem Ended.not_endedOk {s t : State} {es : List Event} (h : Ended s t es) : ¬ EndedOk s t := by
  cases h with
  | reset h _ => exact not_endedOk_of_history_eq h.history
  | never h => exact not_endedOk_of_history_eq h.history
  | bus u h _ _ _ _ _ _ ht => exact ht ▸ not_endedOk_of_error h.history (by simp) 0
  | timeout u h data _ ht => exact ht ▸ not_endedOk_of_error h.history (by simp) data

/-- A command that ended with OK ran to its end, so it has what its statements lead to, if the response keeps that. -/
theorem RunsTo.close {s : State} {f : Flow Byte} {Q : State → Prop} (hf : RunsTo Q f)
    (hs : Sat s f) (hQ : ∀ data t, Q t → Q (endCommand .ok data t)) (hok : EndedOk s (closeCommand f)) :
    Q (closeCommand f) := by
  cases f with
  | run data t => exact hQ data t hf
  | ended t =>
    obtain ⟨es, he⟩ := hs
    exact absurd hok he.not_endedOk

/-- R119: a command that ended with OK had the read path. -/
theorem readPath_of_endedOk {s : State} {f : Flow Byte} (hok : EndedOk s (closeCommand (withReadPath s f))) :
    s.cfg.readPath = .present := by
  cases hp : s.cfg.readPath with
  | present => rfl
  | absent =>
    rw [withReadPath_absent hp] at hok
    exact absurd hok (not_endedOk_of_error rfl (by simp) 0)

theorem RunsTo.close_withReadPath {s : State} {f : Flow Byte} {Q : State → Prop} (hf : RunsTo Q f)
    (hs : Sat s f) (hQ : ∀ data t, Q t → Q (endCommand .ok data t))
    (hok : EndedOk s (closeCommand (withReadPath s f))) : Q (closeCommand (withReadPath s f)) := by
  have hp := readPath_of_endedOk hok
  rw [withReadPath_present hp] at hok ⊢
  exact hf.close hs hQ hok

@[simp] theorem endCommand_pcount (code : RspCode) (data : Byte) (s : State) :
    (endCommand code data s).pcount = s.pcount :=
  congrArg Prod.fst (quiet_pollRegs.finish code data s)

theorem busCounts_endCommand {s t : State} {w r : Nat} (code : RspCode) (data : Byte) (h : busCounts s t w r) :
    busCounts s (endCommand code data t) w r := by
  simpa [busCounts] using h

theorem pollCounts_endCommand {s t : State} {w r : Nat} (code : RspCode) (data : Byte) (h : PollCounts w r s t) :
    PollCounts w r s (endCommand code data t) := by
  simpa [PollCounts, busCounts] using h

theorem syncCounts_endCommand {s t : State} {w r : Nat} (code : RspCode) (data : Byte) (h : SyncCounts w r s t) :
    SyncCounts w r s (endCommand code data t) := by
  unfold SyncCounts at h ⊢
  split at h
  · exact busCounts_endCommand code data h
  · exact pollCounts_endCommand code data h

/-- A flow made of counted statements alone, by its counts. -/
theorem RunsTo.counts {α : Type} {s : State} {f : Flow α} {w r : Nat} (hf : RunsTo (Counted w r s) f) :
    RunsTo (fun t => busCounts s t w r) f :=
  hf.mono fun _ ht => ht.counts

/-- R109: WNIB is one nibble transaction. -/
theorem execWnib_counts {rs : Bool} {n : Nibble} {s t : State} (h : exec (.wnib rs n) s = .next t)
    (hok : EndedOk s t) : busCounts s t 3 0 := by
  cases h
  have hf := counted_andThen (txNibble_counted n rs s) fun _ s => run_counted (0 : Byte) s
  exact hf.counts.close ((txNibble_sat n rs s).andThen fun _ s _ _ => run_sat (0 : Byte) s)
    (fun _ _ => busCounts_endCommand _ _) hok

/-- R97: SETBL's write to `bl` is no bus operation. -/
theorem execSetbl_counts {b : Bool} {s t : State} (h : exec (.setbl b) s = .next t) (hok : EndedOk s t) :
    busCounts s t 1 0 := by
  cases h
  have hs : Sat (setBl b s) (portWrite (backlightByte b s) (setBl b s)) :=
    portWrite_sat _ _ (backlightByte_held b s)
  have hf := counted_andThen (portWrite_counted (backlightByte b s) (setBl b s)) fun _ s => run_counted (0 : Byte) s
  exact hf.counts.close
    (hs.andThen fun _ s _ _ => run_sat (0 : Byte) s) (fun _ _ => busCounts_endCommand _ _) hok

/-- R115: INIT has four nibble transactions. -/
theorem execInit_counts {s t : State} (h : exec .init s = .next t) (hok : EndedOk s t) : busCounts s t 12 0 := by
  cases h
  refine RunsTo.close (RunsTo.counts ?_) ?_ (fun _ _ => busCounts_endCommand _ _) hok
  · exact counted_andThen (wait_counted _ s) fun _ s =>
      counted_andThen (txNibble_counted _ false s) fun _ s => counted_andThen (wait_counted _ s) fun _ s =>
      counted_andThen (txNibble_counted _ false s) fun _ s => counted_andThen (wait_counted _ s) fun _ s =>
      counted_andThen (txNibble_counted _ false s) fun _ s => counted_andThen (wait_counted _ s) fun _ s =>
      counted_andThen (txNibble_counted _ false s) fun _ s => counted_andThen (wait_counted _ s) fun _ s =>
      run_counted 0 s
  · exact (wait_sat _ s).andThen fun _ s _ _ =>
      (txNibble_sat _ false s).andThen fun _ s _ _ => (wait_sat _ s).andThen fun _ s _ _ =>
      (txNibble_sat _ false s).andThen fun _ s _ _ => (wait_sat _ s).andThen fun _ s _ _ =>
      (txNibble_sat _ false s).andThen fun _ s _ _ => (wait_sat _ s).andThen fun _ s _ _ =>
      (txNibble_sat _ false s).andThen fun _ s _ _ => (wait_sat _ s).andThen fun _ s _ _ =>
      run_sat (0 : Byte) s

/-- R128: RSTAT is one status read. -/
theorem execRstat_counts {s t : State} (h : exec .rstat s = .next t) (hok : EndedOk s t) : busCounts s t 6 2 := by
  cases h
  exact (statusRead_counted s).counts.close_withReadPath (statusRead_sat s) (fun _ _ => busCounts_endCommand _ _) hok

/-- R130: POLL is the poll alone. -/
theorem execPoll_counts {s t : State} (hn : 0 < s.cfg.nPollMax.toNat) (h : exec .poll s = .next t)
    (hok : EndedOk s t) : PollCounts 0 0 s t := by
  cases h
  exact (pollBusy_counts hn (Counted.refl s)).close_withReadPath (pollBusy_sat s)
    (fun _ _ => pollCounts_endCommand _ _) hok

/-- R113, R114: a byte transaction and its sync. -/
theorem txByte_sync_counts {b : Byte} {rs long : Bool} {s t : State} (hn : 0 < s.cfg.nPollMax.toNat)
    (h : finish (andThen (txByte b rs s) fun _ s => sync long s) = .next t) (hok : EndedOk s t) :
    SyncCounts 6 0 s t := by
  cases h
  exact ((txByte_counted b rs s).andThen fun _ _ ht => sync_counts hn long ht).close
    ((txByte_sat b rs s).andThen fun _ s _ _ => sync_sat long s) (fun _ _ => syncCounts_endCommand _ _) hok

/-- R129: a byte read and its sync. -/
theorem execRdata_counts {s t : State} (hn : 0 < s.cfg.nPollMax.toNat) (h : exec .rdata s = .next t)
    (hok : EndedOk s t) : SyncCounts 6 2 s t := by
  cases h
  refine RunsTo.close_withReadPath ?_ ?_ (fun _ _ => syncCounts_endCommand _ _) hok
  · exact (rxByte_counted true s).andThen fun _ _ ht => (sync_counts hn false ht).andThen fun _ _ hu => hu
  · exact (rxByte_sat true s).andThen fun x s _ _ => (sync_sat false s).andThen fun _ s _ _ => run_sat x s

/-- Settles O31: the counts of each command's statements, of which OK says that they ran to their end. -/
theorem busOperationCounts : Obligations.BusOperationCounts := by
  unfold Obligations.BusOperationCounts
  intro i s t hl _ h hok k
  have hn : 0 < s.cfg.nPollMax.toNat := nPollMax_pos hl
  cases i with
  | wnib rs n => exact execWnib_counts h hok
  | setbl b => exact execSetbl_counts h hok
  | init => exact execInit_counts h hok
  | rstat => exact execRstat_counts h hok
  | poll => simpa [PollCounts, k] using execPoll_counts hn h hok
  | wcmd lw b =>
    have hs : SyncCounts 6 0 s t := txByte_sync_counts hn h hok
    cases hm : s.cfg.syncMode <;> simpa [SyncCounts, PollCounts, hm, k] using hs
  | wdata b =>
    have hs : SyncCounts 6 0 s t := txByte_sync_counts hn h hok
    cases hm : s.cfg.syncMode <;> simpa [SyncCounts, PollCounts, hm, k] using hs
  | rdata =>
    have hs : SyncCounts 6 2 s t := execRdata_counts hn h hok
    cases hm : s.cfg.syncMode <;> simpa [SyncCounts, PollCounts, hm, k] using hs

end Sys2Proof.Machine
end
